-- ==== Sys2Proof/Word.lean ====
section
/-! DEFINITION. The machine word and the register index of the E20 CORE. -/

namespace Sys2Proof

/-- A Word: a 16-bit unsigned value (00_scope.md section 6.1, R2). Addition and subtraction of Words are
`+16` and `-16`, modulo 65536 (R97). -/
abbrev Word := BitVec 16

/-- The index of a general register, 0 to 7 (R10). -/
abbrev Reg := Fin 8

end Sys2Proof
end

