-- ==== Sys2Proof/Config.lean ====
section
/-! DEFINITION. The sizes the spec fixes (R2) and the cache configuration that the host chooses before a run (R3,
R140). The spec leaves no value of the machine free (R81), so there is no free value here. -/

namespace Sys2Proof

/-- The number of memory cells, 8192 (R2, R18). -/
def Config.memWords : Nat := 8192

/-- The link register of `jal`, register 7 (R2, R113). -/
def Config.link : Reg := 7

/-- The pc after reset: the entry point is cell 0 (R22, R211). -/
def Config.entry : Word := 0

/-- What every memory cell holds after reset (R22, R211), and so what an unlisted cell reads as. -/
def Config.blankCell : Word := 0

/-- The three configured integers of one cache level, `size` and `blockSize` in words (R3, R140, R143). -/
structure Geometry where
  size : Nat
  assoc : Nat
  blockSize : Nat
  deriving DecidableEq, Repr

/-- The cache configuration: 0, 1 or 2 levels, never level 2 alone (R140). -/
inductive CacheSpec where
  | off
  | one (g1 : Geometry)
  | two (g1 g2 : Geometry)
  deriving DecidableEq, Repr

/-- `LEVELS` (R3). -/
def CacheSpec.levels : CacheSpec → Nat
  | .off => 0
  | .one _ => 1
  | .two _ _ => 2

end Sys2Proof
end

