-- ==== Sys2Proof/Syntax.lean ====
section
/-! DEFINITION. The instructions (one constructor per row of spec/opcode_table.json) and the raw fields of an
instruction word. -/

namespace Sys2Proof

/-- The seven fields and the two sign-extended immediates that the Instruction Decoder extracts from every word,
whatever its opcode (R51, R53). -/
structure Fields where
  op : Fin 8
  rA : Reg
  rB : Reg
  rC : Reg
  fn : Fin 16
  imm7 : BitVec 7
  imm13 : BitVec 13
  simm7 : Word
  simm13 : Word
  deriving DecidableEq, Repr

/-- One constructor per row of the opcode map (R55). Register operands stand in the order of the word's fields,
`rA`, `rB`, `rC`; immediates are the raw fields. The bits an instruction ignores (R57: bits 9:4 of `jr`, bits 12:4 of
a reserved word) are kept as an operand `ign` that no meaning reads, so that decoding drops no bit. -/
inductive Instr where
  | add (rA rB rC : Reg)
  | sub (rA rB rC : Reg)
  | or (rA rB rC : Reg)
  | and (rA rB rC : Reg)
  | slt (rA rB rC : Reg)
  | jr (rA : Reg) (ign : BitVec 6)
  | reservedFn5 (ign : BitVec 9)
  | reservedFn6 (ign : BitVec 9)
  | reservedFn7 (ign : BitVec 9)
  | reservedFn9 (ign : BitVec 9)
  | reservedFn10 (ign : BitVec 9)
  | reservedFn11 (ign : BitVec 9)
  | reservedFn12 (ign : BitVec 9)
  | reservedFn13 (ign : BitVec 9)
  | reservedFn14 (ign : BitVec 9)
  | reservedFn15 (ign : BitVec 9)
  | addi (rA rB : Reg) (imm7 : BitVec 7)
  | j (imm13 : BitVec 13)
  | jal (imm13 : BitVec 13)
  | lw (rA rB : Reg) (imm7 : BitVec 7)
  | sw (rA rB : Reg) (imm7 : BitVec 7)
  | jeq (rA rB : Reg) (imm7 : BitVec 7)
  | slti (rA rB : Reg) (imm7 : BitVec 7)
  deriving DecidableEq, Repr

/-- One line of the machine-code file (R171): the cell's address and the sixteen digits, first digit first. -/
structure ImageLine where
  addr : Nat
  digits : List Bool
  deriving DecidableEq, Repr

end Sys2Proof
end

