-- ==== Sys2Proof/WellFormed.lean ====
section
/-! DEFINITION. Which terms are well-formed. An instruction needs no check: each operand's type is exactly its field
(R51, R57), so every term of `Instr` stands for a word. What can be ill-formed is what the host supplies: the cache
geometry (R142) and the image (R171). -/

namespace Sys2Proof

/-- A legal cache level: the three integers are positive and there is at least one row, `size >= assoc * blockSize`
(R142). -/
def Geometry.wellFormed (g : Geometry) : Bool :=
  decide (1 ≤ g.size) && decide (1 ≤ g.assoc) && decide (1 ≤ g.blockSize) && decide (g.assoc * g.blockSize ≤ g.size)

/-- Every configured level is legal (R142). -/
def CacheSpec.wellFormed : CacheSpec → Bool
  | .off => true
  | .one g1 => g1.wellFormed
  | .two g1 g2 => g1.wellFormed && g2.wellFormed

/-- A line holds an address below 8192 and sixteen digits (R171). -/
def ImageLine.wellFormed (l : ImageLine) : Bool :=
  decide (l.addr < Config.memWords) && decide (l.digits.length = 16)

/-- The lines are well-formed and their addresses are `start, start + 1, ...` with no gap (R171). -/
def linesInSequence : Nat → List ImageLine → Bool
  | _, [] => true
  | start, l :: rest => l.wellFormed && decide (l.addr = start) && linesInSequence (start + 1) rest

/-- A legal image file: addresses from 0, increasing by 1, none of 8192 or more (R171). -/
def imageWellFormed (lines : List ImageLine) : Bool := linesInSequence 0 lines

end Sys2Proof
end

