-- ==== Sys2Proof/Decode.lean ====
section
/-! DEFINITION. The Instruction Decoder, from a Word to an instruction, and the encoder, its inverse. The decoder is
total and rejects no word: every 16-bit pattern is an instruction (R53, R56). The bit positions are the spec's own
choice (R51, D1; notes/assumptions/1.md). -/

namespace Sys2Proof

/-- `sext_7`: if bit 6 is set, OR with 0xFF80 (R54). -/
def sext7 (v : BitVec 7) : Word :=
  if v.getLsbD 6 then v.setWidth 16 ||| 0xFF80#16 else v.setWidth 16

/-- `sext_13`: if bit 12 is set, OR with 0xE000 (R54). -/
def sext13 (v : BitVec 13) : Word :=
  if v.getLsbD 12 then v.setWidth 16 ||| 0xE000#16 else v.setWidth 16

/-- The extraction of every field, by the table of R51, and the two sign-extended immediates (R53, R54). -/
def fieldsOf (w : Word) : Fields :=
  let imm7 := BitVec.ofNat 7 w.toNat
  let imm13 := BitVec.ofNat 13 w.toNat
  { op := Fin.ofNat 8 (w.toNat / 8192)
    rA := Fin.ofNat 8 (w.toNat / 1024)
    rB := Fin.ofNat 8 (w.toNat / 128)
    rC := Fin.ofNat 8 (w.toNat / 16)
    fn := Fin.ofNat 16 w.toNat
    imm7 := imm7
    imm13 := imm13
    simm7 := sext7 imm7
    simm13 := sext13 imm13 }

/-- Bits 9:4, which `jr` ignores (R57). -/
def ignored6 (w : Word) : BitVec 6 := BitVec.ofNat 6 (w.toNat / 16)

/-- Bits 12:4, which a reserved word ignores (R57). -/
def ignored9 (w : Word) : BitVec 9 := BitVec.ofNat 9 (w.toNat / 16)

/-- The selection within opcode 0, by the function field (R55, R56); the last arm is 15, the one value left. -/
def selectFn (w : Word) (f : Fields) : Instr :=
  match f.fn with
  | 0 => .add f.rA f.rB f.rC
  | 1 => .sub f.rA f.rB f.rC
  | 2 => .or f.rA f.rB f.rC
  | 3 => .and f.rA f.rB f.rC
  | 4 => .slt f.rA f.rB f.rC
  | 5 => .reservedFn5 (ignored9 w)
  | 6 => .reservedFn6 (ignored9 w)
  | 7 => .reservedFn7 (ignored9 w)
  | 8 => .jr f.rA (ignored6 w)
  | 9 => .reservedFn9 (ignored9 w)
  | 10 => .reservedFn10 (ignored9 w)
  | 11 => .reservedFn11 (ignored9 w)
  | 12 => .reservedFn12 (ignored9 w)
  | 13 => .reservedFn13 (ignored9 w)
  | 14 => .reservedFn14 (ignored9 w)
  | _ => .reservedFn15 (ignored9 w)

/-- The Instruction Decoder: the opcode selects, and for opcode 0 the function does (R55). -/
def decode (w : Word) : Instr :=
  let f := fieldsOf w
  match f.op with
  | 0 => selectFn w f
  | 1 => .addi f.rA f.rB f.imm7
  | 2 => .j f.imm13
  | 3 => .jal f.imm13
  | 4 => .lw f.rA f.rB f.imm7
  | 5 => .sw f.rA f.rB f.imm7
  | 6 => .jeq f.rA f.rB f.imm7
  | 7 => .slti f.rA f.rB f.imm7

/-- The Word whose `nbits` low bits are those of `w`, the others 0. -/
def tableWord (nbits w : Nat) : Word := BitVec.ofNat 16 (w % 2 ^ nbits)

/-- What the decoder reads from an instruction whose bits are `w`: an instruction is one 16-bit Word (R50), so more
than 16 bits is none. -/
def decodeTableWord (nbits w : Nat) : Option Instr :=
  if nbits ≤ 16 then some (decode (tableWord nbits w)) else none

/-! ### The encoder (R58) -/

/-- Format RRR (R58). -/
def encodeRRR (fn : Nat) (rA rB rC : Reg) : Word :=
  BitVec.ofNat 16 (rA.val * 1024 + rB.val * 128 + rC.val * 16 + fn)

/-- Format RRI (R58). -/
def encodeRRI (op : Nat) (rA rB : Reg) (imm7 : BitVec 7) : Word :=
  BitVec.ofNat 16 (op * 8192 + rA.val * 1024 + rB.val * 128 + imm7.toNat)

/-- Format J (R58). -/
def encodeJ (op : Nat) (imm13 : BitVec 13) : Word :=
  BitVec.ofNat 16 (op * 8192 + imm13.toNat)

/-- `jr` with its ignored bits 9:4 (R57). -/
def encodeJr (rA : Reg) (ign : BitVec 6) : Word :=
  BitVec.ofNat 16 (rA.val * 1024 + ign.toNat * 16 + 8)

/-- A reserved word with its ignored bits 12:4 (R56, R57). -/
def encodeReserved (fn : Nat) (ign : BitVec 9) : Word :=
  BitVec.ofNat 16 (ign.toNat * 16 + fn)

/-- The word of an instruction, from the opcode map (R55, R58). -/
def encode : Instr → Word
  | .add rA rB rC => encodeRRR 0 rA rB rC
  | .sub rA rB rC => encodeRRR 1 rA rB rC
  | .or rA rB rC => encodeRRR 2 rA rB rC
  | .and rA rB rC => encodeRRR 3 rA rB rC
  | .slt rA rB rC => encodeRRR 4 rA rB rC
  | .jr rA ign => encodeJr rA ign
  | .reservedFn5 ign => encodeReserved 5 ign
  | .reservedFn6 ign => encodeReserved 6 ign
  | .reservedFn7 ign => encodeReserved 7 ign
  | .reservedFn9 ign => encodeReserved 9 ign
  | .reservedFn10 ign => encodeReserved 10 ign
  | .reservedFn11 ign => encodeReserved 11 ign
  | .reservedFn12 ign => encodeReserved 12 ign
  | .reservedFn13 ign => encodeReserved 13 ign
  | .reservedFn14 ign => encodeReserved 14 ign
  | .reservedFn15 ign => encodeReserved 15 ign
  | .addi rA rB imm7 => encodeRRI 1 rA rB imm7
  | .j imm13 => encodeJ 2 imm13
  | .jal imm13 => encodeJ 3 imm13
  | .lw rA rB imm7 => encodeRRI 4 rA rB imm7
  | .sw rA rB imm7 => encodeRRI 5 rA rB imm7
  | .jeq rA rB imm7 => encodeRRI 6 rA rB imm7
  | .slti rA rB imm7 => encodeRRI 7 rA rB imm7

/-- The `mask` column of the opcode map (R55): the bits that select the instruction. -/
def rowMask : Instr → Word
  | .add .. | .sub .. | .or .. | .and .. | .slt .. | .jr .. => 0xE00F
  | .reservedFn5 _ | .reservedFn6 _ | .reservedFn7 _ | .reservedFn9 _ | .reservedFn10 _ => 0xE00F
  | .reservedFn11 _ | .reservedFn12 _ | .reservedFn13 _ | .reservedFn14 _ | .reservedFn15 _ => 0xE00F
  | .addi .. | .j _ | .jal _ | .lw .. | .sw .. | .jeq .. | .slti .. => 0xE000

/-- The `match` column of the opcode map (R55, R56). -/
def rowMatch : Instr → Word
  | .add .. => 0x0000
  | .sub .. => 0x0001
  | .or .. => 0x0002
  | .and .. => 0x0003
  | .slt .. => 0x0004
  | .jr .. => 0x0008
  | .reservedFn5 _ => 0x0005
  | .reservedFn6 _ => 0x0006
  | .reservedFn7 _ => 0x0007
  | .reservedFn9 _ => 0x0009
  | .reservedFn10 _ => 0x000A
  | .reservedFn11 _ => 0x000B
  | .reservedFn12 _ => 0x000C
  | .reservedFn13 _ => 0x000D
  | .reservedFn14 _ => 0x000E
  | .reservedFn15 _ => 0x000F
  | .addi .. => 0x2000
  | .j _ => 0x4000
  | .jal _ => 0x6000
  | .lw .. => 0x8000
  | .sw .. => 0xA000
  | .jeq .. => 0xC000
  | .slti .. => 0xE000

/-! ### The digits of the machine-code file (R171) -/

/-- The Word that binary digits spell, the first digit the most significant (R33, R171, D7; notes/assumptions/20.md). -/
def wordOfDigits (digits : List Bool) : Word :=
  digits.foldl (fun w d => w + w + (if d then 1 else 0)) 0

end Sys2Proof
end

