-- ==== Sys2Proof/Machine/State.lean ====
section
/-! DEFINITION. The state of the E20 CORE: everything the spec gives the machine (10_state.md R10 to R22), the reasons
a step can stop, and the state after reset. -/

namespace Sys2Proof.Machine

/-- The memory, as the cells that do not hold the reset value: (address, Word) pairs in canonical form (`Memory.wf`).
The cell is the 16-bit Word, the only addressable unit (R18, R33; notes/assumptions/12.md). -/
structure Memory where
  cells : List (Nat × Word)
  deriving DecidableEq, Repr

/-- The name of a cache level in a trace record (R140, R152). -/
inductive LevelName where
  | L1
  | L2
  deriving DecidableEq, Repr

/-- The label of a trace record (R152); `SW` is the outcome WRITE (C2). -/
inductive Label where
  | HIT
  | MISS
  | SW
  deriving DecidableEq, Repr

/-- One trace record (R152). -/
structure TraceRecord where
  name : LevelName
  label : Label
  pc : Word
  addr : Nat
  row : Nat
  deriving DecidableEq, Repr

/-- The address event that a load or a store hands to the Cache Simulator (R132): `addr` is the reduced address. -/
structure AddressEvent where
  isWrite : Bool
  addr : Nat
  pc : Word
  deriving DecidableEq, Repr

/-- One configured cache level: its geometry (configuration, R19) and its sets, one list of tags per row, most
recently used first (R19, R144). -/
structure CacheLevel where
  geom : Geometry
  sets : List (List Nat)
  deriving DecidableEq, Repr

/-- The Cache Simulator with 0, 1 or 2 levels (R140, R144). -/
inductive Caches where
  | off
  | one (c1 : CacheLevel)
  | two (c1 c2 : CacheLevel)
  deriving DecidableEq, Repr

/-- The state of the block. -/
structure State where
  /-- The Register File `R[0]` .. `R[7]` (R10, R11). -/
  regs : Vector Word 8
  /-- The program counter, a full 16-bit Word (R13, R14). -/
  pc : Word
  /-- The halt signal (R16, R76). -/
  halted : Bool
  /-- The Memory `M[0]` .. `M[8191]` (R18). -/
  mem : Memory
  /-- The Cache Simulator: configuration and sets (R19, R144). -/
  caches : Caches
  /-- The host has started the run: false in phase LOAD (R71; notes/assumptions/11.md). -/
  started : Bool
  /-- The host has used its one `configure` since reset (R177; notes/assumptions/16.md). -/
  configured : Bool
  /-- The model's own field: the trace records that have left the block, oldest first (R152, R153). No instruction
  and no cache access reads it (notes/assumptions/14.md). -/
  trace : List TraceRecord
  deriving DecidableEq, Repr

/-- The phases between steps (R71). RESET is left at once to LOAD, so no state is in it. -/
inductive Phase where
  | load
  | run
  | halted
  deriving DecidableEq, Repr

/-- Why no step is enabled. Neither is an error of the machine, which has none (R190). -/
inductive Fault where
  /-- Raised by `step` in phase LOAD: the host has not started the run and the engine takes no step (R71). Safe. -/
  | notStarted
  /-- Raised by `step` in phase HALTED: `halted` is 1 and no step is enabled until reset (R16, R71, R203). Safe. -/
  | halted
  deriving DecidableEq, Repr

/-- What the model refuses. -/
inductive Refusal where
  /-- Reserved for an arm of `exec` whose instruction has no meaning yet. Safe. No arm raises it. -/
  | notModelled (mnemonic : String)
  /-- Raised by `configure`, and by `step` in a state so configured: a cache geometry outside R142, about which the
  spec claims nothing (D12). Safe. -/
  | illegalCacheConfig
  /-- Raised by the host transactions `configure`, `loadWord` and `start` outside phase LOAD (R170, R177). Safe. -/
  | outsideLoad
  /-- Raised by `configure` when the host has configured the cache since reset: it may do so once (R177). Safe. -/
  | configuredAlready
  /-- Raised by `loadImage`, `loadFile`, `loadText`, `boot` and `bootFile`: the image or its file is malformed or too
  long, so the run never starts (R171, R178). Safe. -/
  | badImage
  deriving DecidableEq, Repr

/-- What a step, a meaning or a host transaction answers. -/
abbrev Result := Host.Outcome State Fault Refusal

/-- The machine right after reset (R22, R210, R211): registers, pc and memory zero, `halted` 0, phase LOAD, no cache
level configured yet, no trace record. -/
def State.reset : State where
  regs := Vector.replicate 8 0
  pc := Config.entry
  halted := false
  mem := ⟨[]⟩
  caches := .off
  started := false
  configured := false
  trace := []

end Sys2Proof.Machine
end

