-- ==== Sys2Proof/Machine/Cache.lean ====
section
/-! DEFINITION. The Cache Simulator (44_cache.md): address mapping, one access to one level with strict LRU
replacement, and the response to an address event. -/

namespace Sys2Proof.Machine

/-- `rowCount = size / assoc / blockSize`, integer divisions from left to right (R141). -/
def rowCount (g : Geometry) : Nat := g.size / g.assoc / g.blockSize

/-- `blockId = a / blockSize` (R143). -/
def blockId (g : Geometry) (a : Nat) : Nat := a / g.blockSize

/-- `row = blockId % rowCount` (R143). -/
def rowOf (g : Geometry) (a : Nat) : Nat := blockId g a % rowCount g

/-- `tag = blockId / rowCount` (R143). -/
def tagOf (g : Geometry) (a : Nat) : Nat := blockId g a / rowCount g

/-- A level as configured: every set is empty (R22, R144). -/
def emptyLevel (g : Geometry) : CacheLevel := ⟨g, List.replicate (rowCount g) []⟩

/-- The Cache Simulator as configured: 0, 1 or 2 empty levels (R140, R210). -/
def emptyCaches : CacheSpec → Caches
  | .off => .off
  | .one g1 => .one (emptyLevel g1)
  | .two g1 g2 => .two (emptyLevel g1) (emptyLevel g2)

/-- The configuration of the Cache Simulator (R140). -/
def Caches.spec : Caches → CacheSpec
  | .off => .off
  | .one c1 => .one c1.geom
  | .two c1 c2 => .two c1.geom c2.geom

/-- The configurations a run is defined under (R142). -/
def specAccepted (cfg : CacheSpec) : Bool := cfg.wellFormed

/-- `Ck.set[r]` (R19, R144). -/
def CacheLevel.set (c : CacheLevel) (r : Nat) : List Nat := c.sets.getD r []

/-- A set after its tag `tag` is used: on a hit the tag moves to the front; on a miss it is inserted at the front,
after the back tag is evicted from a set that is full (R146, R147). -/
def touch (assoc : Nat) (tag : Nat) (S : List Nat) : List Nat :=
  if tag ∈ S then tag :: S.filter (fun t => t != tag)
  else if S.length = assoc then tag :: S.dropLast
  else tag :: S

/-- The result of `Access(k, a)` (R146). -/
structure AccessResult where
  hit : Bool
  row : Nat
  level : CacheLevel
  deriving DecidableEq, Repr

/-- `Access(k, a)`: whether `a` hit, the row used, and the level afterwards (R146). -/
def CacheLevel.access (c : CacheLevel) (a : Nat) : AccessResult :=
  let row := rowOf c.geom a
  let tag := tagOf c.geom a
  let S := c.set row
  { hit := decide (tag ∈ S)
    row := row
    level := { c with sets := c.sets.set row (touch c.geom.assoc tag S) } }

/-- The label of a load's record (R150). -/
def loadLabel (hit : Bool) : Label := if hit then .HIT else .MISS

/-- The record of one access (R152). -/
def recordOf (name : LevelName) (label : Label) (e : AddressEvent) (row : Nat) : TraceRecord :=
  { name := name, label := label, pc := e.pc, addr := e.addr, row := row }

/-- A read event (R150): level 2 is looked up only when level 1 missed. -/
def Caches.onRead (cs : Caches) (e : AddressEvent) : Caches × List TraceRecord :=
  match cs with
  | .off => (.off, [])
  | .one c1 =>
    let r1 := c1.access e.addr
    (.one r1.level, [recordOf .L1 (loadLabel r1.hit) e r1.row])
  | .two c1 c2 =>
    let r1 := c1.access e.addr
    if r1.hit then (.two r1.level c2, [recordOf .L1 .HIT e r1.row])
    else
      let r2 := c2.access e.addr
      (.two r1.level r2.level, [recordOf .L1 .MISS e r1.row, recordOf .L2 (loadLabel r2.hit) e r2.row])

/-- A write event (R151): every configured level is accessed, and the label is always SW. -/
def Caches.onWrite (cs : Caches) (e : AddressEvent) : Caches × List TraceRecord :=
  match cs with
  | .off => (.off, [])
  | .one c1 =>
    let r1 := c1.access e.addr
    (.one r1.level, [recordOf .L1 .SW e r1.row])
  | .two c1 c2 =>
    let r1 := c1.access e.addr
    let r2 := c2.access e.addr
    (.two r1.level r2.level, [recordOf .L1 .SW e r1.row, recordOf .L2 .SW e r2.row])

/-- The response to an address event (R150, R151). -/
def Caches.handle (cs : Caches) (e : AddressEvent) : Caches × List TraceRecord :=
  if e.isWrite then cs.onWrite e else cs.onRead e

/-! ### The invariants of the sets (R19, R148) -/

/-- A set holds no tag twice and at most `assoc` tags (R19, R144). -/
def setWf (assoc : Nat) (S : List Nat) : Bool := decide S.Nodup && decide (S.length ≤ assoc)

/-- A level has one set per row, and every set is as R144 says. -/
def CacheLevel.wf (c : CacheLevel) : Bool :=
  decide (c.sets.length = rowCount c.geom) && c.sets.all (setWf c.geom.assoc)

/-- Every configured level is as R144 says. -/
def Caches.wf : Caches → Bool
  | .off => true
  | .one c1 => c1.wf
  | .two c1 c2 => c1.wf && c2.wf

end Sys2Proof.Machine
end

