-- ==== Sys2Proof/Machine/Ops.lean ====
section
/-! DEFINITION. The named operations over memory, registers, pc and the halt signal that every meaning is built from.
The spec describes no exception, so there is none to take or to return from (R190, R194, R195): the one event that
ends a run is the self-jump halt, `haltHere`. -/

namespace Sys2Proof.Machine

/-! ### Memory (R30, R31) -/

/-- The Word a list of cells holds at `a`: an unlisted cell holds the reset value. -/
def lookupCell (a : Nat) : List (Nat × Word) → Word
  | [] => Config.blankCell
  | (k, v) :: rest => if k = a then v else lookupCell a rest

/-- Puts a cell before the first one of a higher address. -/
def insertCell (a : Nat) (v : Word) : List (Nat × Word) → List (Nat × Word)
  | [] => [(a, v)]
  | (k, w) :: rest => if a < k then (a, v) :: (k, w) :: rest else (k, w) :: insertCell a v rest

/-- The index of the cell an address names: every address is reduced modulo 8192 (R30). -/
def cellIndex (a : Nat) : Nat := a % Config.memWords

/-- `MemRead(a)`: the Word of the cell `a mod 8192` (R31). -/
def Memory.read (m : Memory) (a : Nat) : Word := lookupCell (cellIndex a) m.cells

/-- `MemWrite(a, v)`: the cell `a mod 8192` gets `v` (R31). A cell that gets the reset value is not listed. -/
def Memory.write (m : Memory) (a : Nat) (v : Word) : Memory :=
  let others := m.cells.filter (fun c => c.1 != cellIndex a)
  ⟨if v = Config.blankCell then others else insertCell (cellIndex a) v others⟩

/-- Addresses strictly rise from `low` on, stay below 8192, and no cell holds the reset value. -/
def cellsWf : Nat → List (Nat × Word) → Bool
  | _, [] => true
  | low, (k, v) :: rest =>
    decide (low ≤ k) && decide (k < Config.memWords) && decide (v ≠ Config.blankCell) && cellsWf (k + 1) rest

/-- The canonical form of memory (notes/assumptions/13.md). -/
def Memory.wf (m : Memory) : Bool := cellsWf 0 m.cells

/-! ### Registers (R10, R11) -/

/-- The value of `R[r]`: register 0 is hardwired to zero (R11). -/
def State.readReg (s : State) (r : Reg) : Word := if r = 0 then 0 else s.regs[r]

/-- `R[r] <- v`. What it puts in register 0 is undone by `forceZero` at the end of the step (R11, R75). -/
def State.writeReg (s : State) (r : Reg) (v : Word) : State := { s with regs := s.regs.set r v }

/-- `R[0] <- 0`, the last action of every step (R75). -/
def State.forceZero (s : State) : State := { s with regs := s.regs.set 0 0 }

/-! ### pc, halt signal, memory and the address event -/

/-- `pc <- t`, unreduced (R14). -/
def State.setPc (s : State) (t : Word) : State := { s with pc := t }

/-- `halted <- 1` (R76). -/
def State.raiseHalt (s : State) : State := { s with halted := true }

/-- `MemWrite(a, v)` on the state's memory (R31). -/
def State.store (s : State) (a : Nat) (v : Word) : State := { s with mem := s.mem.write a v }

/-- `Event(isWrite, a, pc)`: the address event is handed to the Cache Simulator, and its records leave the block
(R132, R152). The event carries the pc of the load or store itself (D10). -/
def State.event (s : State) (isWrite : Bool) (a : Nat) : State :=
  let out := s.caches.handle { isWrite := isWrite, addr := a, pc := s.pc }
  { s with caches := out.1, trace := s.trace ++ out.2 }

/-- `pc +16 1` (R14). -/
def State.nextPc (s : State) : Word := s.pc + 1

/-- The instruction Word of a step, `M[pc mod 8192]` (R72). -/
def State.fetch (s : State) : Word := s.mem.read s.pc.toNat

/-! ### The ends of a step -/

/-- Ends a step: `R[0] <- 0`, and the next state (R75). -/
def endStep (s : State) : Result := .next s.forceZero

/-- Ends a step that goes on at `t`. -/
def goTo (s : State) (t : Word) : Result := endStep (s.setPc t)

/-- Ends a step of an instruction that is no taken control transfer: `pc <- pc +16 1` (R14 (a)). -/
def advance (s : State) : Result := goTo s s.nextPc

/-- Ends a step by the self-jump halt: `halted <- 1`, the pc unchanged (R76). -/
def haltHere (s : State) : Result := endStep s.raiseHalt

/-- Ends a control transfer to `t`, given whether its halt condition holds (R110). -/
def transfer (s : State) (t : Word) (selfJump : Bool) : Result := if selfJump then haltHere s else goTo s t

/-! ### Phases (R71) -/

/-- The phase a state is in (R71). -/
def State.phase (s : State) : Phase :=
  if s.started then (if s.halted then .halted else .run) else .load

/-- The run is under a configuration the spec covers (R142). -/
def State.configLegal (s : State) : Bool := specAccepted s.caches.spec

end Sys2Proof.Machine
end

