-- ==== Sys2Proof/Machine/Operands.lean ====
section
/-! DEFINITION. The operand forms: the two immediates, the effective address, the branch target and the link value. A
register operand is read by `State.readReg` and written by `State.writeReg`. -/

namespace Sys2Proof.Machine

/-- `simm7`, the sign-extended short immediate (R54). -/
def simm7 (imm7 : BitVec 7) : Word := sext7 imm7

/-- `simm13`, the sign-extended long immediate, the target of `j` and `jal` (R54, R112, R113; D2,
notes/assumptions/2.md). -/
def simm13 (imm13 : BitVec 13) : Word := sext13 imm13

/-- The effective address `(R[rA] +16 simm7) mod 8192` of `lw` and `sw` (R133). -/
def effAddr (s : State) (rA : Reg) (imm7 : BitVec 7) : Nat := cellIndex (s.readReg rA + simm7 imm7).toNat

/-- The target of a taken `jeq`, `pc +16 1 +16 simm7` (R114). -/
def branchTarget (s : State) (imm7 : BitVec 7) : Word := s.nextPc + simm7 imm7

/-- The value `jal` writes to the link register, `pc +16 1` (R113). -/
def linkValue (s : State) : Word := s.nextPc

end Sys2Proof.Machine
end

