-- ==== Sys2Proof/Machine/Flags.lean ====
section
/-! DEFINITION. The machine has no flags and no condition codes (R15). What stands here is what another machine would
compute flags for: the two comparisons and the three self-jump tests. -/

namespace Sys2Proof.Machine

/-- `1 if a <u b else 0`, both read as unsigned numbers (R94, R96, R97; D3, notes/assumptions/3.md). -/
def lessThan (a b : Word) : Word := if a.toNat < b.toNat then 1 else 0

/-- Equality of all 16 bits, the test of `jeq` (R97 (e), R114). -/
def equalWords (a b : Word) : Bool := a == b

/-- The halt test of `jr`: the target equals the raw pc (R110, R111). -/
def jrHalts (s : State) (t : Word) : Bool := t == s.pc

/-- The halt test of `j`: the 16-bit target equals the pc modulo 8192 (R110, R112). -/
def jHalts (s : State) (t : Word) : Bool := t.toNat == s.pc.toNat % Config.memWords

/-- The halt test of `jal`: the target equals the raw pc (R110, R113; C1, notes/assumptions/6.md). -/
def jalHalts (s : State) (t : Word) : Bool := t == s.pc

end Sys2Proof.Machine
end

