-- ==== Sys2Proof/Machine/Alu.lean ====
section
/-! DEFINITION. The arithmetic, logic and comparison instructions (41_alu.md R90 to R97). -/

namespace Sys2Proof.Machine

/-- Writes a result to its register and goes on: the common end of the family. -/
def writeAndAdvance (s : State) (rd : Reg) (v : Word) : Result := advance (s.writeReg rd v)

/-- `add` (R90). -/
def execAdd (rA rB rC : Reg) (s : State) : Result := writeAndAdvance s rC (s.readReg rA + s.readReg rB)

/-- `sub` (R91). -/
def execSub (rA rB rC : Reg) (s : State) : Result := writeAndAdvance s rC (s.readReg rA - s.readReg rB)

/-- `or` (R92). -/
def execOr (rA rB rC : Reg) (s : State) : Result := writeAndAdvance s rC (s.readReg rA ||| s.readReg rB)

/-- `and` (R93). -/
def execAnd (rA rB rC : Reg) (s : State) : Result := writeAndAdvance s rC (s.readReg rA &&& s.readReg rB)

/-- `slt` (R94). -/
def execSlt (rA rB rC : Reg) (s : State) : Result := writeAndAdvance s rC (lessThan (s.readReg rA) (s.readReg rB))

/-- `addi` (R95). -/
def execAddi (rA rB : Reg) (imm7 : BitVec 7) (s : State) : Result :=
  writeAndAdvance s rB (s.readReg rA + simm7 imm7)

/-- `slti` (R96). -/
def execSlti (rA rB : Reg) (imm7 : BitVec 7) (s : State) : Result :=
  writeAndAdvance s rB (lessThan (s.readReg rA) (simm7 imm7))

end Sys2Proof.Machine
end

