-- ==== Sys2Proof/Machine/Control.lean ====
section
/-! DEFINITION. The control transfers (42_control.md R110 to R116). -/

namespace Sys2Proof.Machine

/-- `jr`: the target is the whole of `R[rA]` (R111). -/
def execJr (rA : Reg) (s : State) : Result := transfer s (s.readReg rA) (jrHalts s (s.readReg rA))

/-- `j` (R112). -/
def execJ (imm13 : BitVec 13) (s : State) : Result := transfer s (simm13 imm13) (jHalts s (simm13 imm13))

/-- `jal`: the link is written first and kept when the step halts (R113; D5, notes/assumptions/5.md). -/
def execJal (imm13 : BitVec 13) (s : State) : Result :=
  transfer (s.writeReg Config.link (linkValue s)) (simm13 imm13) (jalHalts s (simm13 imm13))

/-- `jeq`: no halt test (R114). -/
def execJeq (rA rB : Reg) (imm7 : BitVec 7) (s : State) : Result :=
  if equalWords (s.readReg rA) (s.readReg rB) then goTo s (branchTarget s imm7) else advance s

end Sys2Proof.Machine
end

