-- ==== Sys2Proof/Machine/LoadStore.lean ====
section
/-! DEFINITION. Load and store (43_loadstore.md R130 to R133). The data access comes first, then the address event,
then the pc (R74, D19). -/

namespace Sys2Proof.Machine

/-- `lw` (R130). -/
def execLw (rA rB : Reg) (imm7 : BitVec 7) (s : State) : Result :=
  let a := effAddr s rA imm7
  advance ((s.writeReg rB (s.mem.read a)).event false a)

/-- `sw` (R131). -/
def execSw (rA rB : Reg) (imm7 : BitVec 7) (s : State) : Result :=
  let a := effAddr s rA imm7
  advance ((s.store a (s.readReg rB)).event true a)

end Sys2Proof.Machine
end

