-- ==== Sys2Proof/Machine/Reserved.lean ====
section
/-! DEFINITION. The ten reserved opcode-0 functions (R56, R98): no-operations that advance the pc (D4,
notes/assumptions/4.md). -/

namespace Sys2Proof.Machine

/-- The reserved no-op: `pc <- pc +16 1`, nothing else changes (R98). -/
def noOperation (s : State) : Result := advance s

/-- Reserved function 5 (R98). -/
def execReservedFn5 (s : State) : Result := noOperation s

/-- Reserved function 6 (R98). -/
def execReservedFn6 (s : State) : Result := noOperation s

/-- Reserved function 7 (R98). -/
def execReservedFn7 (s : State) : Result := noOperation s

/-- Reserved function 9 (R98). -/
def execReservedFn9 (s : State) : Result := noOperation s

/-- Reserved function 10 (R98). -/
def execReservedFn10 (s : State) : Result := noOperation s

/-- Reserved function 11 (R98). -/
def execReservedFn11 (s : State) : Result := noOperation s

/-- Reserved function 12 (R98). -/
def execReservedFn12 (s : State) : Result := noOperation s

/-- Reserved function 13 (R98). -/
def execReservedFn13 (s : State) : Result := noOperation s

/-- Reserved function 14 (R98). -/
def execReservedFn14 (s : State) : Result := noOperation s

/-- Reserved function 15 (R98). -/
def execReservedFn15 (s : State) : Result := noOperation s

end Sys2Proof.Machine
end

