-- ==== Sys2Proof/Machine/Dispatch.lean ====
section
/-! DEFINITION. The one selection over the instructions (R73): one arm per constructor. -/

namespace Sys2Proof.Machine

def exec (i : Instr) (s : State) : Host.Outcome State Fault Refusal :=
  match i with
  | .add rA rB rC => Sys2Proof.Machine.execAdd rA rB rC s
  | .sub rA rB rC => Sys2Proof.Machine.execSub rA rB rC s
  | .or rA rB rC => Sys2Proof.Machine.execOr rA rB rC s
  | .and rA rB rC => Sys2Proof.Machine.execAnd rA rB rC s
  | .slt rA rB rC => Sys2Proof.Machine.execSlt rA rB rC s
  | .jr rA _ => Sys2Proof.Machine.execJr rA s
  | .reservedFn5 _ => Sys2Proof.Machine.execReservedFn5 s
  | .reservedFn6 _ => Sys2Proof.Machine.execReservedFn6 s
  | .reservedFn7 _ => Sys2Proof.Machine.execReservedFn7 s
  | .reservedFn9 _ => Sys2Proof.Machine.execReservedFn9 s
  | .reservedFn10 _ => Sys2Proof.Machine.execReservedFn10 s
  | .reservedFn11 _ => Sys2Proof.Machine.execReservedFn11 s
  | .reservedFn12 _ => Sys2Proof.Machine.execReservedFn12 s
  | .reservedFn13 _ => Sys2Proof.Machine.execReservedFn13 s
  | .reservedFn14 _ => Sys2Proof.Machine.execReservedFn14 s
  | .reservedFn15 _ => Sys2Proof.Machine.execReservedFn15 s
  | .addi rA rB imm7 => Sys2Proof.Machine.execAddi rA rB imm7 s
  | .j imm13 => Sys2Proof.Machine.execJ imm13 s
  | .jal imm13 => Sys2Proof.Machine.execJal imm13 s
  | .lw rA rB imm7 => Sys2Proof.Machine.execLw rA rB imm7 s
  | .sw rA rB imm7 => Sys2Proof.Machine.execSw rA rB imm7 s
  | .jeq rA rB imm7 => Sys2Proof.Machine.execJeq rA rB imm7 s
  | .slti rA rB imm7 => Sys2Proof.Machine.execSlti rA rB imm7 s

end Sys2Proof.Machine
end

