-- ==== Sys2Proof/Machine/Step.lean ====
section
/-! DEFINITION. One step of the machine (R77): in phase RUN, fetch, decode and execute one instruction. -/

namespace Sys2Proof.Machine

/-- One step. In LOAD and in HALTED no step is enabled (R71); under a cache configuration outside R142 the model
refuses; otherwise the Word at `pc mod 8192` is decoded and executed (R72, R73, R77). -/
def step (s : State) : Host.Outcome State Fault Refusal :=
  match s.phase with
  | .load => .fault .notStarted
  | .halted => .fault .halted
  | .run => if s.configLegal then exec (decode s.fetch) s else .refused .illegalCacheConfig

/-- `s` with the instruction Word `w` in the cell that the next step fetches from, and in phase RUN: what the host's
load and start do (notes/assumptions/11.md). -/
def State.withFetchWord (s : State) (nbits w : Nat) : State :=
  { s with mem := s.mem.write s.pc.toNat (tableWord nbits w), started := true, halted := false }

end Sys2Proof.Machine
end

