-- ==== Sys2Proof/Machine/HostPort.lean ====
section
/-! DEFINITION. The transactions of the block (R82): reset, configure, load_word, start and observe, and the boot
sequence that makes a run of an image (R170 to R172, R176, R212). They stand beside `step`: the host acts in phase LOAD
and by reset only, never during RUN (R177; notes/assumptions/16.md and 17.md). -/

namespace Sys2Proof.Machine

/-- One transaction after another, up to the first that stops. -/
def andThen (r : Result) (next : State → Result) : Result :=
  match r with
  | .next s => next s
  | .fault e => .fault e
  | .refused e => .refused e

/-- A transaction that is defined in phase LOAD only (R71, R82). -/
def inLoad (s : State) (r : Result) : Result := if s.phase = .load then r else .refused .outsideLoad

/-- The reset input, at any time: all state is discarded and the machine is in phase LOAD (R210). -/
def resetInput (_s : State) : State := State.reset

/-- `LEVELS` and the geometry of each level set, every set empty (R140, R210), and the host's one `configure` used. -/
def State.setCaches (s : State) (cfg : CacheSpec) : State := { s with caches := emptyCaches cfg, configured := true }

/-- `configure` (R140, R172), once after reset (R177) and refused outside R142. -/
def configure (cfg : CacheSpec) (s : State) : Result :=
  inLoad s (if s.configured then .refused .configuredAlready
    else if specAccepted cfg then .next (s.setCaches cfg) else .refused .illegalCacheConfig)

/-- `load_word`: `M[addr] <- data` (R170). -/
def loadWord (addr : BitVec 13) (data : Word) (s : State) : Result := inLoad s (.next (s.store addr.toNat data))

/-- `start`: phase RUN is entered (R71). -/
def start (s : State) : Result := inLoad s (.next { s with started := true })

/-- Loads the words of an image from cell `k` upward (R170). -/
def loadFrom (k : Nat) (image : List Word) (s : State) : Result :=
  match image with
  | [] => .next s
  | v :: rest => andThen (loadWord (BitVec.ofNat 13 k) v s) (loadFrom (k + 1) rest)

/-- Loads an image: word `i` goes to cell `i` (R170, R171). An image of more than 8192 words is refused (R3, R171). -/
def loadImage (image : List Word) (s : State) : Result :=
  if image.length ≤ Config.memWords then loadFrom 0 image s else .refused .badImage

/-- Loads a machine-code file, given line by line; a malformed one is a fatal load error (R171). -/
def loadFile (lines : List ImageLine) (s : State) : Result :=
  if imageWellFormed lines then loadImage (lines.map (fun l => wordOfDigits l.digits)) s else .refused .badImage

/-! The text of the machine-code file (R171); the address is read as decimal (notes/assumptions/19.md). -/

/-- What follows a fixed text; none where the characters do not begin with it. -/
def afterText : List Char → List Char → Option (List Char)
  | [], cs => some cs
  | _ :: _, [] => none
  | p :: ps, c :: cs => if p = c then afterText ps cs else none

/-- A decimal number after `n`, ended by `]`, and what follows the bracket. -/
def decimalUpTo (n : Nat) : List Char → Option (Nat × List Char)
  | [] => none
  | c :: cs =>
    if c = ']' then some (n, cs)
    else if c.isDigit then decimalUpTo (10 * n + (c.toNat - '0'.toNat)) cs else none

/-- Binary digits ended by the `;` that ends the line. -/
def bitsUpTo : List Char → Option (List Bool)
  | [] => none
  | [c] => if c = ';' then some [] else none
  | c :: cs =>
    if c = '0' then (bitsUpTo cs).map (List.cons false)
    else if c = '1' then (bitsUpTo cs).map (List.cons true) else none

/-- A line of the form `ram[<addr>] = 16'b<digits>;`; none where it is not of that form (R171). -/
def parseLine (cs : List Char) : Option ImageLine :=
  match afterText "ram[".toList cs with
  | some (c :: rest) =>
    match if c.isDigit then decimalUpTo 0 (c :: rest) else none with
    | some (addr, tail) => ((afterText " = 16'b".toList tail).bind bitsUpTo).map (fun digits => ⟨addr, digits⟩)
    | none => none
  | some [] => none
  | none => none

/-- Every line parsed; none where one is not of the form. -/
def parseLines : List (List Char) → Option (List ImageLine)
  | [] => some []
  | cs :: rest => (parseLine cs).bind (fun l => (parseLines rest).map (List.cons l))

/-- Loads a machine-code file given as text, line by line (R171). -/
def loadText (text : List (List Char)) (s : State) : Result :=
  match parseLines text with
  | some lines => loadFile lines s
  | none => .refused .badImage

/-- The cache option: absent, three integers, or six; any other count is a fatal configuration error (R172). -/
def cacheSpecOf : Option (List Int) → Option CacheSpec
  | none => some .off
  | some [s1, a1, b1] => some (.one ⟨s1.toNat, a1.toNat, b1.toNat⟩)
  | some [s1, a1, b1, s2, a2, b2] =>
    some (.two ⟨s1.toNat, a1.toNat, b1.toNat⟩ ⟨s2.toNat, a2.toNat, b2.toNat⟩)
  | some _ => none

/-- `configure` by the cache option (R172). -/
def configureOption (opt : Option (List Int)) (s : State) : Result :=
  match cacheSpecOf opt with
  | some cfg => configure cfg s
  | none => .refused .illegalCacheConfig

/-- From reset to the first state of a run: configure, load the image, start (R212). -/
def boot (cfg : CacheSpec) (image : List Word) : Result :=
  andThen (configure cfg State.reset) (fun s => andThen (loadImage image s) start)

/-- The same for a machine-code file (R171, R212). -/
def bootFile (cfg : CacheSpec) (lines : List ImageLine) : Result :=
  andThen (configure cfg State.reset) (fun s => andThen (loadFile lines s) start)

/-- What `observe` shows the host between steps (R176): the full 16-bit pc (D23), the registers, every cell, `halted`
and the cache configuration. -/
structure Observation where
  pc : Word
  regs : List Word
  mem : List Word
  halted : Bool
  config : CacheSpec
  deriving DecidableEq, Repr

/-- `observe` changes nothing: it is a function of the state (R176). -/
def State.observe (s : State) : Observation where
  pc := s.pc
  regs := (List.finRange 8).map s.readReg
  mem := (List.range Config.memWords).map s.mem.read
  halted := s.halted
  config := s.caches.spec

end Sys2Proof.Machine
end

