-- ==== Sys2Proof/Machine/Report.lean ====
section
/-! DEFINITION. What the Reporter is given and the texts the spec gives for it (R155, R173 to R175). The Reporter is
outside the block (00_scope.md section 4); texts are lists of characters. Numbers are printed in decimal where the spec
assumes it (notes/assumptions/19.md). -/

namespace Sys2Proof.Machine

/-- The configuration echo of one level (R155). -/
structure EchoRecord where
  name : LevelName
  size : Nat
  assoc : Nat
  blockSize : Nat
  rows : Nat
  deriving DecidableEq, Repr

/-- The echo of one level. -/
def echoOf (name : LevelName) (g : Geometry) : EchoRecord := ⟨name, g.size, g.assoc, g.blockSize, rowCount g⟩

/-- The echo of every configured level, level 1 first (R155). -/
def configEcho : CacheSpec → List EchoRecord
  | .off => []
  | .one g1 => [echoOf .L1 g1]
  | .two g1 g2 => [echoOf .L1 g1, echoOf .L2 g2]

/-- What the final-state dump shows: the pc, the eight registers and the first 128 cells (R175). -/
structure FinalDump where
  pc : Word
  regs : List Word
  words : List Word
  deriving DecidableEq, Repr

/-- The number of cells in the dump (R175). -/
def dumpWords : Nat := 128

/-- The final-state dump, produced once `halted` is raised (R80, R175), whatever cache levels are configured: whether
the cache-observing variant prints it too the spec leaves open (N11; DESIGN CHOICE, notes/assumptions/29.md). The pc is
shown whole (D23, notes/assumptions/27.md). -/
def State.finalDump (s : State) : Option FinalDump :=
  if s.halted then
    some ⟨s.pc, (List.finRange 8).map s.readReg, (List.range dumpWords).map s.mem.read⟩
  else none

/-! ### Texts -/

/-- The decimal digits of a number. -/
def decimal (n : Nat) : List Char := Nat.toDigits 10 n

/-- Right-aligns in a field. -/
def alignRight (width : Nat) (cs : List Char) : List Char := List.replicate (width - cs.length) ' ' ++ cs

/-- Left-justifies in a field. -/
def alignLeft (width : Nat) (cs : List Char) : List Char := cs ++ List.replicate (width - cs.length) ' '

/-- The printed name of a level (R140, D15). -/
def levelText : LevelName → List Char
  | .L1 => ['L', '1']
  | .L2 => ['L', '2']

/-- The printed status (R174). -/
def labelText : Label → List Char
  | .HIT => ['H', 'I', 'T']
  | .MISS => ['M', 'I', 'S', 'S']
  | .SW => ['S', 'W']

/-- The trace line (R174): the 8-character field, a space (C7), then pc, address and row in widths 5, 5 and 4. -/
def traceLine (r : TraceRecord) : List Char :=
  alignLeft 8 (levelText r.name ++ [' '] ++ labelText r.label) ++ [' ', 'p', 'c', ':'] ++
    alignRight 5 (decimal r.pc.toNat) ++ ['\t', 'a', 'd', 'd', 'r', ':'] ++ alignRight 5 (decimal r.addr) ++
    ['\t', 'r', 'o', 'w', ':'] ++ alignRight 4 (decimal r.row)

/-- The line of the configuration echo (R173). -/
def echoLine (e : EchoRecord) : List Char :=
  "Cache ".toList ++ levelText e.name ++ " has size ".toList ++ decimal e.size ++ ", associativity ".toList ++
    decimal e.assoc ++ ", blocksize ".toList ++ decimal e.blockSize ++ ", rows ".toList ++ decimal e.rows

/-- Four lowercase hexadecimal digits (R175). -/
def hexWord (w : Word) : List Char :=
  [Nat.digitChar (w.toNat / 4096), Nat.digitChar (w.toNat / 256 % 16), Nat.digitChar (w.toNat / 16 % 16),
    Nat.digitChar (w.toNat % 16)]

/-- One line of the dump: the words separated by single spaces (R175). -/
def hexLine : List Word → List Char
  | [] => []
  | [w] => hexWord w
  | w :: v :: rest => hexWord w ++ [' '] ++ hexLine (v :: rest)

/-- The line of a register, `$<n>=<value>` (R175), the value in decimal (DESIGN CHOICE, notes/assumptions/30.md). -/
def registerLine (n : Nat) (w : Word) : List Char := ['$'] ++ decimal n ++ ['='] ++ decimal w.toNat

/-- The memory part of the dump: 16 lines of 8 words (R175). -/
def dumpLines (d : FinalDump) : List (List Char) :=
  (List.range 16).map (fun i => hexLine ((d.words.drop (8 * i)).take 8))

/-- The dump as text, line by line, in the order of R175: the pc, the registers, the memory. That the pc stands alone in
decimal and each register on its own line the spec leaves open (N11; DESIGN CHOICE, notes/assumptions/30.md). -/
def dumpText (d : FinalDump) : List (List Char) :=
  [decimal d.pc.toNat] ++ d.regs.mapIdx registerLine ++ dumpLines d

end Sys2Proof.Machine
end

