-- ==== Sys2Proof/Safety.lean ====
section
/-! DEFINITION. What counts as a good state and a safe run, and the words the statements are written in: frames, what
each instruction reads and writes, the halt conditions, and the recency order of tags. -/

namespace Sys2Proof.Machine

/-! ### Frames -/

/-- Every register reads as before. -/
def RegistersKept (s t : State) : Prop := ∀ q : Reg, t.readReg q = s.readReg q

/-- Register `r` holds `v`, and nothing if `r` is 0, which discards it (R11). Every other register reads as before. -/
def RegisterWritten (s t : State) (r : Reg) (v : Word) : Prop :=
  ∀ q : Reg, t.readReg q = if q = r ∧ q ≠ 0 then v else s.readReg q

/-- Every cell of memory reads as before. -/
def MemoryKept (s t : State) : Prop := ∀ a : Nat, t.mem.read a = s.mem.read a

/-- The cell that `a` names holds `v`, and every other cell reads as before. -/
def CellWritten (s t : State) (a : Nat) (v : Word) : Prop :=
  ∀ b : Nat, t.mem.read b = if b % 8192 = a % 8192 then v else s.mem.read b

/-- The Cache Simulator and the trace are as before. -/
def ObserverKept (s t : State) : Prop := t.caches = s.caches ∧ t.trace = s.trace

/-- The Cache Simulator has answered one address event, and its records have been added to the trace. -/
def ObserverSaw (s t : State) (e : AddressEvent) : Prop :=
  t.caches = (s.caches.handle e).1 ∧ t.trace = s.trace ++ (s.caches.handle e).2

/-- What the host has done is as before: whether it has started the run and used its one `configure`. -/
def HostKept (s t : State) : Prop := t.started = s.started ∧ t.configured = s.configured

/-- Neither the halt signal nor what the host has set has changed. -/
def RunKept (s t : State) : Prop := t.halted = s.halted ∧ HostKept s t

/-- The whole effect of an instruction that writes one register and goes on (R12, R14). -/
def OnlyRegisterWritten (s t : State) (r : Reg) (v : Word) : Prop :=
  RegisterWritten s t r v ∧ t.pc = s.pc + 1 ∧ RunKept s t ∧ MemoryKept s t ∧ ObserverKept s t

/-- The whole effect of an instruction that only moves the pc. -/
def OnlyPcWritten (s t : State) (pc : Word) : Prop :=
  RegistersKept s t ∧ t.pc = pc ∧ RunKept s t ∧ MemoryKept s t ∧ ObserverKept s t

/-- The pc and the halt signal after a control transfer to `target`, halting when `selfJump` (R110). -/
def JumpedOrHalted (s t : State) (target : Word) (selfJump : Prop) : Prop :=
  (selfJump → t.halted = true ∧ t.pc = s.pc) ∧ (¬selfJump → t.halted = s.halted ∧ t.pc = target)

/-! ### What each instruction reads and writes (R12) -/

/-- The registers an instruction reads (R12). -/
def readsOf : Instr → List Reg
  | .add rA rB _ | .sub rA rB _ | .or rA rB _ | .and rA rB _ | .slt rA rB _ => [rA, rB]
  | .jr rA _ => [rA]
  | .reservedFn5 _ | .reservedFn6 _ | .reservedFn7 _ | .reservedFn9 _ | .reservedFn10 _ => []
  | .reservedFn11 _ | .reservedFn12 _ | .reservedFn13 _ | .reservedFn14 _ | .reservedFn15 _ => []
  | .addi rA _ _ | .slti rA _ _ | .lw rA _ _ => [rA]
  | .sw rA rB _ | .jeq rA rB _ => [rA, rB]
  | .j _ | .jal _ => []

/-- The registers an instruction writes, besides the forced `R[0]` (R12). -/
def writesOf : Instr → List Reg
  | .add _ _ rC | .sub _ _ rC | .or _ _ rC | .and _ _ rC | .slt _ _ rC => [rC]
  | .jr _ _ => []
  | .reservedFn5 _ | .reservedFn6 _ | .reservedFn7 _ | .reservedFn9 _ | .reservedFn10 _ => []
  | .reservedFn11 _ | .reservedFn12 _ | .reservedFn13 _ | .reservedFn14 _ | .reservedFn15 _ => []
  | .addi _ rB _ | .slti _ rB _ | .lw _ rB _ => [rB]
  | .sw _ _ _ | .jeq _ _ _ | .j _ => []
  | .jal _ => [Config.link]

/-- The instruction is `sw`, the only one that writes memory (R12). -/
def isStore : Instr → Bool
  | .sw _ _ _ => true
  | .add .. | .sub .. | .or .. | .and .. | .slt .. | .jr .. | .addi .. | .slti .. | .lw .. | .jeq .. => false
  | .j _ | .jal _ => false
  | .reservedFn5 _ | .reservedFn6 _ | .reservedFn7 _ | .reservedFn9 _ | .reservedFn10 _ => false
  | .reservedFn11 _ | .reservedFn12 _ | .reservedFn13 _ | .reservedFn14 _ | .reservedFn15 _ => false

/-- The instruction is `lw`. -/
def isLoad : Instr → Bool
  | .lw _ _ _ => true
  | .add .. | .sub .. | .or .. | .and .. | .slt .. | .jr .. | .addi .. | .slti .. | .sw .. | .jeq .. => false
  | .j _ | .jal _ => false
  | .reservedFn5 _ | .reservedFn6 _ | .reservedFn7 _ | .reservedFn9 _ | .reservedFn10 _ => false
  | .reservedFn11 _ | .reservedFn12 _ | .reservedFn13 _ | .reservedFn14 _ | .reservedFn15 _ => false

/-- The halt condition of an instruction in a state: the table of R110, and false for every other instruction. -/
def SelfJump (i : Instr) (s : State) : Prop :=
  match i with
  | .jr rA _ => s.readReg rA = s.pc
  | .j imm13 => (simm13 imm13).toNat = s.pc.toNat % 8192
  | .jal imm13 => simm13 imm13 = s.pc
  | .add .. | .sub .. | .or .. | .and .. | .slt .. | .addi .. | .slti .. | .lw .. | .sw .. | .jeq .. => False
  | .reservedFn5 _ | .reservedFn6 _ | .reservedFn7 _ | .reservedFn9 _ | .reservedFn10 _ => False
  | .reservedFn11 _ | .reservedFn12 _ | .reservedFn13 _ | .reservedFn14 _ | .reservedFn15 _ => False

/-- The two words are the same row of the opcode map (R55). -/
def sameRow (i k : Instr) : Prop := rowMask i = rowMask k ∧ rowMatch i = rowMatch k

/-! ### Good states and safe runs -/

/-- The invariant of the machine: memory is in canonical form, register 0 holds 0 (R11), the sets of every level are
as R19 says, the configuration is one a run is defined under (R142), and a halted machine was started (R71). -/
def State.Inv (s : State) : Prop :=
  s.mem.wf = true ∧ s.regs[0] = 0 ∧ s.caches.wf = true ∧ s.configLegal = true ∧
    (s.halted = true → s.started = true)

/-- The two states agree in everything a program can see: registers, pc, memory, halt signal and phase (R20). -/
def SameProgramState (s t : State) : Prop :=
  s.regs = t.regs ∧ s.pc = t.pc ∧ s.mem = t.mem ∧ s.halted = t.halted ∧ s.started = t.started

/-- A run is safe: it goes on or has halted, and is never refused (R190, R215). -/
def SafeOutcome (r : Result) : Prop := (∃ t, r = .next t) ∨ r = .fault .halted

/-! ### Recency (R144, R147) -/

/-- The configured levels, level 1 first. -/
def Caches.levels : Caches → List CacheLevel
  | .off => []
  | .one c1 => [c1]
  | .two c1 c2 => [c1, c2]

/-- A level after a list of accesses, the latest one first in the list. -/
def CacheLevel.after (c : CacheLevel) : List Nat → CacheLevel
  | [] => c
  | a :: earlier => ((c.after earlier).access a).level

/-- The tags that accesses to one row used, the latest first. -/
def rowTags (g : Geometry) (r : Nat) (accesses : List Nat) : List Nat :=
  (accesses.filter (fun a => rowOf g a == r)).map (tagOf g)

/-- Each tag once, at its latest use. -/
def latestFirst : List Nat → List Nat
  | [] => []
  | t :: earlier => t :: (latestFirst earlier).filter (fun u => u != t)

/-- Whether an address hits in level 1; false when there is no level. -/
def Caches.levelOneHit (cs : Caches) (a : Nat) : Bool :=
  match cs.levels with
  | [] => false
  | c1 :: _ => (c1.access a).hit

/-- The table of R153: the names and labels that the records of a step may carry, in order, for the event, the number of
levels and the level-1 result. -/
def recordShapes (write : Bool) (levels : Nat) (hit1 : Bool) : List (List (LevelName × Label)) :=
  match write, levels, hit1 with
  | _, 0, _ => [[]]
  | false, 1, true => [[(.L1, .HIT)]]
  | false, 1, false => [[(.L1, .MISS)]]
  | false, _, true => [[(.L1, .HIT)]]
  | false, _, false => [[(.L1, .MISS), (.L2, .HIT)], [(.L1, .MISS), (.L2, .MISS)]]
  | true, 1, _ => [[(.L1, .SW)]]
  | true, _, _ => [[(.L1, .SW), (.L2, .SW)]]

/-- A step added records of the table's shape to the trace. -/
def RecordsAdded (s t : State) (write : Bool) (a : Nat) : Prop :=
  ∃ records, t.trace = s.trace ++ records ∧
    records.map (fun r => (r.name, r.label)) ∈ recordShapes write s.caches.spec.levels (s.caches.levelOneHit a)

end Sys2Proof.Machine
end

