-- ==== Sys2Proof/Certificates/Slice0/Obligations.lean ====
section
/-! DEFINITION. The statements for the provers. Register values are read through `State.readReg`, memory through
`Memory.read`; the frames are those of Sys2Proof/Safety.lean. -/

open Sys2Proof Sys2Proof.Machine

/-! ### Arithmetic, logic, comparison and the reserved words -/

/-- R90: `add` writes the sum modulo 65536 to `R[rC]` and goes on. -/
def Obligations.AddWritesSum : Prop :=
  ∀ (rA rB rC : Reg) (s : State), ∃ t, exec (.add rA rB rC) s = .next t ∧
    OnlyRegisterWritten s t rC (s.readReg rA + s.readReg rB)

/-- R91: `sub` writes the difference modulo 65536 to `R[rC]` and goes on. -/
def Obligations.SubWritesDifference : Prop :=
  ∀ (rA rB rC : Reg) (s : State), ∃ t, exec (.sub rA rB rC) s = .next t ∧
    OnlyRegisterWritten s t rC (s.readReg rA - s.readReg rB)

/-- R92, R93: `or` and `and` write the bitwise result to `R[rC]` and go on. -/
def Obligations.OrAndWriteBitwise : Prop :=
  ∀ (rA rB rC : Reg) (s : State),
    (∃ t, exec (.or rA rB rC) s = .next t ∧ OnlyRegisterWritten s t rC (s.readReg rA ||| s.readReg rB)) ∧
    (∃ t, exec (.and rA rB rC) s = .next t ∧ OnlyRegisterWritten s t rC (s.readReg rA &&& s.readReg rB))

/-- 41_alu.md section 2: `slt` writes 1 or 0. That the comparison is unsigned is the spec's decision D3
(notes/assumptions/3.md). -/
def Obligations.SltWritesUnsignedOrder : Prop :=
  ∀ (rA rB rC : Reg) (s : State), ∃ t, exec (.slt rA rB rC) s = .next t ∧
    OnlyRegisterWritten s t rC (if (s.readReg rA).toNat < (s.readReg rB).toNat then 1 else 0)

/-- R95: `addi` writes the sum with the sign-extended immediate to `R[rB]` and goes on. -/
def Obligations.AddiWritesSum : Prop :=
  ∀ (rA rB : Reg) (imm7 : BitVec 7) (s : State), ∃ t, exec (.addi rA rB imm7) s = .next t ∧
    OnlyRegisterWritten s t rB (s.readReg rA + simm7 imm7)

/-- 41_alu.md section 3: `slti` compares with the sign-extended immediate, unsigned by the spec's decision D3
(notes/assumptions/3.md). -/
def Obligations.SltiWritesUnsignedOrder : Prop :=
  ∀ (rA rB : Reg) (imm7 : BitVec 7) (s : State), ∃ t, exec (.slti rA rB imm7) s = .next t ∧
    OnlyRegisterWritten s t rB (if (s.readReg rA).toNat < (simm7 imm7).toNat then 1 else 0)

/-- 41_alu.md section 4: each of the ten reserved functions changes the pc alone. That the pc advances is the spec's
decision D4 (notes/assumptions/4.md). -/
def Obligations.ReservedWordsOnlyAdvance : Prop :=
  ∀ (ign : BitVec 9) (s : State), ∀ i ∈ [Instr.reservedFn5 ign, .reservedFn6 ign, .reservedFn7 ign, .reservedFn9 ign,
      .reservedFn10 ign, .reservedFn11 ign, .reservedFn12 ign, .reservedFn13 ign, .reservedFn14 ign,
      .reservedFn15 ign],
    ∃ t, exec i s = .next t ∧ OnlyPcWritten s t (s.pc + 1)

/-! ### Control transfer -/

/-- R111: `jr` jumps to the whole of `R[rA]`, or halts when that is the raw pc. -/
def Obligations.JrJumpsOrHalts : Prop :=
  ∀ (rA : Reg) (ign : BitVec 6) (s : State), ∃ t, exec (.jr rA ign) s = .next t ∧
    JumpedOrHalted s t (s.readReg rA) (s.readReg rA = s.pc) ∧
    RegistersKept s t ∧ MemoryKept s t ∧ ObserverKept s t ∧ HostKept s t

/-- 42_control.md section 2: `j` jumps to the sign-extended immediate (the spec's decision D2, notes/assumptions/2.md),
or halts when that is the pc modulo 8192. -/
def Obligations.JJumpsOrHalts : Prop :=
  ∀ (imm13 : BitVec 13) (s : State), ∃ t, exec (.j imm13) s = .next t ∧
    JumpedOrHalted s t (simm13 imm13) ((simm13 imm13).toNat = s.pc.toNat % 8192) ∧
    RegistersKept s t ∧ MemoryKept s t ∧ ObserverKept s t ∧ HostKept s t

/-- 42_control.md section 2: `jal` writes the link, also when it halts (the spec's decision D5), and then jumps to the
sign-extended immediate (D2) or halts when that is the raw pc (C1). Log entries 2, 5 and 6. -/
def Obligations.JalLinksThenJumpsOrHalts : Prop :=
  ∀ (imm13 : BitVec 13) (s : State), ∃ t, exec (.jal imm13) s = .next t ∧
    RegisterWritten s t 7 (s.pc + 1) ∧
    JumpedOrHalted s t (simm13 imm13) (simm13 imm13 = s.pc) ∧
    MemoryKept s t ∧ ObserverKept s t ∧ HostKept s t

/-- R114: `jeq` branches from the next instruction when the registers are equal; it has no halt test. -/
def Obligations.JeqBranchesOnEqual : Prop :=
  ∀ (rA rB : Reg) (imm7 : BitVec 7) (s : State), ∃ t, exec (.jeq rA rB imm7) s = .next t ∧
    OnlyPcWritten s t (if s.readReg rA = s.readReg rB then s.pc + 1 + simm7 imm7 else s.pc + 1)

/-- 42_control.md section 1: a step raises `halted` exactly when its instruction is a `jr`, `j` or `jal` whose halt
condition holds, and then it leaves the pc unchanged. The conditions of `j` and `jal` rest on D2 and C1
(notes/assumptions/2.md and 6.md). -/
def Obligations.HaltsExactlyOnSelfJump : Prop :=
  ∀ (i : Instr) (s t : State), s.halted = false → exec i s = .next t →
    (t.halted = true ↔ SelfJump i s) ∧ (t.halted = true → t.pc = s.pc)

/-- 42_control.md section 2, `j` corner case (2): with bit 12 of the immediate set a `j` never halts; the pc gets
`imm13 + 0xE000`, which names the cell `imm13`. Rests on the spec's decision D2 (notes/assumptions/2.md). -/
def Obligations.JWithBit12SetNeverHalts : Prop :=
  ∀ (imm13 : BitVec 13) (s : State), 4096 ≤ imm13.toNat → ∃ t, exec (.j imm13) s = .next t ∧
    t.halted = s.halted ∧ t.pc.toNat = imm13.toNat + 0xE000 ∧ t.pc.toNat % 8192 = imm13.toNat

/-- 42_control.md section 3, last row: a `jal` to its own cell `c` below 4096, reached with pc `c + 0x2000`, goes to
pc `c` on the first step and halts on the second, the link being `c + 1`. Rests on C1 and D5 (notes/assumptions/5.md
and 6.md). -/
def Obligations.JalAliasHaltsOnSecondStep : Prop :=
  ∀ (imm13 : BitVec 13) (s : State), s.started = true → s.halted = false → s.configLegal = true →
    imm13.toNat < 4096 → s.fetch = encode (.jal imm13) → s.pc.toNat = imm13.toNat + 0x2000 →
    ∃ t u, step s = .next t ∧ t.pc.toNat = imm13.toNat ∧ t.halted = false ∧ t.readReg 7 = s.pc + 1 ∧
      step t = .next u ∧ u.halted = true ∧ u.pc = t.pc ∧ (u.readReg 7).toNat = imm13.toNat + 1

/-- 40_execution_engine.md section 4: a `jeq` that branches to itself runs for ever and changes nothing. -/
def Obligations.JeqToItselfRunsForever : Prop :=
  ∀ (r : Reg) (s : State), s.started = true → s.halted = false → s.configLegal = true → s.regs[0] = 0 →
    s.fetch = encode (.jeq r r 0x7F) → ∀ k, core.run k s = .next s

/-! ### Load and store -/

/-- 43_loadstore.md: `lw` writes the cell at the effective address to `R[rB]`, also reading and emitting its event when
`rB` is 0, and stores nothing. That the event carries the pc of the `lw` is the spec's decision D10
(notes/assumptions/7.md). -/
def Obligations.LwLoadsCell : Prop :=
  ∀ (rA rB : Reg) (imm7 : BitVec 7) (s : State), ∃ t, exec (.lw rA rB imm7) s = .next t ∧
    RegisterWritten s t rB (s.mem.read (effAddr s rA imm7)) ∧ t.pc = s.pc + 1 ∧ RunKept s t ∧ MemoryKept s t ∧
    ObserverSaw s t { isWrite := false, addr := effAddr s rA imm7, pc := s.pc }

/-- 43_loadstore.md: `sw` writes `R[rB]` to the cell at the effective address and no other. That the event carries the
pc of the `sw` is the spec's decision D10 (notes/assumptions/7.md). -/
def Obligations.SwStoresCell : Prop :=
  ∀ (rA rB : Reg) (imm7 : BitVec 7) (s : State), ∃ t, exec (.sw rA rB imm7) s = .next t ∧
    CellWritten s t (effAddr s rA imm7) (s.readReg rB) ∧ RegistersKept s t ∧ t.pc = s.pc + 1 ∧ RunKept s t ∧
    ObserverSaw s t { isWrite := true, addr := effAddr s rA imm7, pc := s.pc }

/-- 43_loadstore.md, effective address: the sum modulo 8192; only the low 13 bits of the base matter. -/
def Obligations.EffectiveAddressIsReducedSum : Prop :=
  ∀ (rA : Reg) (imm7 : BitVec 7) (s : State),
    effAddr s rA imm7 = ((s.readReg rA).toNat + (simm7 imm7).toNat) % 8192 ∧
    effAddr s rA imm7 = ((s.readReg rA).toNat % 8192 + (imm7.signExtend 13).toNat) % 8192

/-- 20_memory.md section 9: after a `sw` every fetch from the cell it stored to sees the stored Word, and every other
fetch sees what it saw before. -/
def Obligations.FetchSeesEarlierStore : Prop :=
  ∀ (rA rB : Reg) (imm7 : BitVec 7) (s t : State) (pc : Word), exec (.sw rA rB imm7) s = .next t →
    (t.setPc pc).fetch =
      if pc.toNat % 8192 = effAddr s rA imm7 then s.readReg rB else (s.setPc pc).fetch

/-! ### Rules of the whole machine -/

/-- 10_state.md section 1, the table of registers read and written: an instruction leaves every register but those it
writes as it was, and what it does to every other piece of state and to the registers it writes depends on no register
but those it reads. -/
def Obligations.InstructionsReadAndWriteTheirRegisters : Prop :=
  ∀ (i : Instr) (s t : State), exec i s = .next t →
    (∀ q, q ∉ writesOf i → t.readReg q = s.readReg q) ∧ t.readReg 0 = 0 ∧
    ∀ s' : State, s'.pc = s.pc → s'.halted = s.halted → s'.mem = s.mem → s'.caches = s.caches →
      s'.started = s.started → s'.configured = s.configured → s'.trace = s.trace →
      (∀ q ∈ readsOf i, s'.readReg q = s.readReg q) →
      ∃ t', exec i s' = .next t' ∧ t'.pc = t.pc ∧ t'.halted = t.halted ∧ t'.mem = t.mem ∧ t'.caches = t.caches ∧
        t'.started = t.started ∧ t'.configured = t.configured ∧ t'.trace = t.trace ∧ ∀ q ∈ writesOf i, t'.readReg q = t.readReg q

/-- 40_execution_engine.md section 3: after every instruction, register 0 is stored as 0 and reads as 0. That the forced
write has no exception is the spec's decision D6 (notes/assumptions/15.md). -/
def Obligations.RegisterZeroIsZeroAfterEveryStep : Prop :=
  ∀ (i : Instr) (s t : State), exec i s = .next t → t.regs[0] = 0 ∧ t.readReg 0 = 0

/-- 10_state.md section 1 and 20_memory.md: no instruction but `sw` changes a cell of memory. -/
def Obligations.OnlyStoreChangesMemory : Prop :=
  ∀ (i : Instr) (s t : State), isStore i = false → exec i s = .next t → MemoryKept s t

/-- 20_memory.md section 10 and 43_loadstore.md: no instruction but `lw` and `sw` reaches the Cache Simulator or adds a
trace record. -/
def Obligations.OnlyLoadAndStoreReachCache : Prop :=
  ∀ (i : Instr) (s t : State), isLoad i = false → isStore i = false → exec i s = .next t → ObserverKept s t

/-- R81: in every state every instruction has exactly one successor and one list of records, which is added to the
trace. -/
def Obligations.ExecutionIsTotal : Prop :=
  ∀ (i : Instr) (s : State), ∃ t, exec i s = .next t ∧ (∀ t', exec i s = .next t' → t' = t) ∧
    ∃! records, t.trace = s.trace ++ records

/-- R72: in phase RUN the step reads the Word at `pc mod 8192`, without a side effect, and decodes and executes it in the
state as it was. -/
def Obligations.StepRunsDecodedInstruction : Prop :=
  ∀ s : State, s.started = true → s.halted = false → s.configLegal = true →
    step s = exec (decode (s.mem.read (s.pc.toNat % 8192))) s

/-- 40_execution_engine.md section 2: in LOAD and in HALTED no step is enabled. The phases are the spec's decision D9, and
that HALTED is left only by reset is D13 (notes/assumptions/10.md and 11.md). -/
def Obligations.NoStepOutsidePhaseRun : Prop :=
  ∀ s : State, (s.started = false → step s = .fault .notStarted) ∧
    (s.started = true → s.halted = true → step s = .fault .halted)

/-- 60_exceptions.md section 1, 70_reset_and_hazards.md section 5: from a good started state a run never fails: after any
number of steps it goes on or has halted. -/
def Obligations.RunNeverFails : Prop :=
  ∀ s : State, s.Inv → s.started = true → ∀ k, SafeOutcome (core.run k s)

/-- 10_state.md section 7: two states that differ only in the Cache Simulator and the trace run in step, to states that
differ only there, and stop alike. -/
def Obligations.CacheIsInvisibleToPrograms : Prop :=
  ∀ (k : Nat) (s s' : State), SameProgramState s s' → s.configLegal = true → s'.configLegal = true →
    (∀ t, core.run k s = .next t → ∃ t', core.run k s' = .next t' ∧ SameProgramState t t') ∧
    (∀ f, core.run k s = .fault f → core.run k s' = .fault f)

/-- The invariant of the model holds at reset. That the configuration is legal there rests on the model's choice that
reset leaves no level configured (notes/assumptions/22.md), and the canonical form of memory on its own form
(notes/assumptions/13.md). -/
def Obligations.InvHoldsAtReset : Prop := State.reset.Inv

/-- Every step keeps the invariant: memory in canonical form (log entry 13), register 0 stored as 0, the sets of every
level without repetition and within the associativity, the configuration legal. -/
def Obligations.InvKeptByEveryStep : Prop :=
  ∀ s t : State, s.Inv → step s = .next t → t.Inv

/-- The host's transactions keep the invariant. `configure` keeps the configuration legal because it refuses any other
(the spec's decision D12, notes/assumptions/9.md); the canonical form of memory is the model's (notes/assumptions/13.md),
and reset leaves no level configured by the model's choice (notes/assumptions/22.md). -/
def Obligations.InvKeptByHostTransactions : Prop :=
  ∀ (cfg : CacheSpec) (addr : BitVec 13) (data : Word) (s t : State), s.Inv →
    (configure cfg s = .next t → t.Inv) ∧ (loadWord addr data s = .next t → t.Inv) ∧ (start s = .next t → t.Inv) ∧
    (resetInput s).Inv

/-! ### Decoding and encoding -/

/-- Decoding the encoding of an instruction gives it back, every operand included, the ignored bits too, which the model
keeps as operands (30_encoding.md; notes/assumptions/23.md). The bit positions are the spec's decision D1
(notes/assumptions/1.md). -/
def Obligations.DecodeOfEncodeIsIdentity : Prop := ∀ i : Instr, decode (encode i) = i

/-- Encoding the decoding of a Word gives it back: no bit of any of the 65536 words is dropped, ignored bits included.
R57 says only that bits are ignored; that they are kept as operands is the model's (notes/assumptions/23.md). The bit
positions are the spec's decision D1 (notes/assumptions/1.md). -/
def Obligations.EncodeOfDecodeIsIdentity : Prop := ∀ w : Word, encode (decode w) = w

/-- 30_encoding.md section 3: a Word decodes to the row of the opcode map whose match and mask it meets, and it meets no
other row's. -/
def Obligations.OpcodeMapSelectsOneRow : Prop :=
  ∀ w : Word, w &&& rowMask (decode w) = rowMatch (decode w) ∧
    ∀ i : Instr, w &&& rowMask i = rowMatch i → sameRow i (decode w)

/-- 30_encoding.md section 1: the decoder's fields are the bit slices of the Word (D1, notes/assumptions/1.md). -/
def Obligations.FieldsAreBitSlices : Prop :=
  ∀ w : Word, BitVec.ofFin (fieldsOf w).op = w.extractLsb' 13 3 ∧ BitVec.ofFin (fieldsOf w).rA = w.extractLsb' 10 3 ∧
    BitVec.ofFin (fieldsOf w).rB = w.extractLsb' 7 3 ∧ BitVec.ofFin (fieldsOf w).rC = w.extractLsb' 4 3 ∧
    BitVec.ofFin (fieldsOf w).fn = w.extractLsb' 0 4 ∧ (fieldsOf w).imm7 = w.extractLsb' 0 7 ∧
    (fieldsOf w).imm13 = w.extractLsb' 0 13 ∧ (fieldsOf w).simm7 = sext7 (w.extractLsb' 0 7) ∧
    (fieldsOf w).simm13 = sext13 (w.extractLsb' 0 13)

/-- 30_encoding.md section 2: the sign extensions, as numbers: ORing the high bits in adds 0xFF80 or 0xE000, and the
result is the field read as a signed number. -/
def Obligations.SignExtensionKeepsValue : Prop :=
  (∀ v : BitVec 7, (sext7 v).toNat = (if v.toNat < 64 then v.toNat else v.toNat + 0xFF80) ∧ (sext7 v).toInt = v.toInt) ∧
  (∀ v : BitVec 13, (sext13 v).toNat = (if v.toNat < 4096 then v.toNat else v.toNat + 0xE000) ∧
    (sext13 v).toInt = v.toInt)

/-- Words of 95_test_vectors.md sections 2 to 5, written out bit by bit, decode to the instruction they stand for. The
rows are those of 30_encoding.md section 3, the bit positions the spec's decision D1 (notes/assumptions/1.md). -/
def Obligations.KnownWordsDecode : Prop :=
  decode 0b0000100110010000 = .add 2 3 1 ∧ decode 0b0000010100110101 = .reservedFn5 0b001010011 ∧
  decode 0b0000110000001000 = .jr 3 0 ∧ decode 0b0010000010000101 = .addi 0 1 5 ∧
  decode 0b0101000000000000 = .j 0x1000 ∧ decode 0b0110000000000101 = .jal 5 ∧
  decode 0b1000010100000011 = .lw 1 2 3 ∧ decode 0b1010010101111111 = .sw 1 2 0x7F ∧
  decode 0b1100010100000100 = .jeq 1 2 4 ∧ decode 0b1110010101111111 = .slti 1 2 0x7F

/-! ### Memory -/

/-- R31: a read gives the Word last written to its cell, a write changes no other cell, and every address is reduced
modulo 8192; neither can fail, in any memory. -/
def Obligations.ReadGivesLastWrite : Prop :=
  ∀ (m : Memory) (a b : Nat) (v : Word), m.read (a % 8192) = m.read a ∧
    (m.write a v).read b = if b % 8192 = a % 8192 then v else m.read b

/-- The model's canonical form (log entry 13): a write keeps it, and two memories in it that read alike are equal data. -/
def Obligations.CanonicalMemoriesAreEqualWhenTheyReadAlike : Prop :=
  (∀ (m : Memory) (a : Nat) (v : Word), m.wf = true → (m.write a v).wf = true) ∧
  ∀ m n : Memory, m.wf = true → n.wf = true → (∀ a, m.read a = n.read a) → m = n

/-! ### The Cache Simulator -/

/-- R146: one access to a level, whatever the address: the row used, the hit test, the move to the front, the insertion
with the eviction of the back tag of a full set, and every other row untouched. -/
def Obligations.AccessMovesOrInsertsTag : Prop :=
  ∀ (c : CacheLevel) (a : Nat), c.wf = true → c.geom.wellFormed = true →
    let row := rowOf c.geom a
    let tag := tagOf c.geom a
    let S := c.set row
    let r := c.access a
    r.row = row ∧ r.level.geom = c.geom ∧ (r.hit = true ↔ tag ∈ S) ∧
    (tag ∈ S → r.level.set row = tag :: S.filter (fun t => t != tag)) ∧
    (tag ∉ S → S.length = c.geom.assoc → r.level.set row = tag :: S.dropLast) ∧
    (tag ∉ S → S.length < c.geom.assoc → r.level.set row = tag :: S) ∧
    ∀ q, q ≠ row → r.level.set q = c.set q

/-- 44_cache.md section 3: replacement is strict LRU. After any accesses to an empty level, each set holds the tags last
used in its row, each once, latest first, as many as the associativity allows. -/
def Obligations.SetsHoldTheLatestTags : Prop :=
  ∀ (g : Geometry) (accesses : List Nat) (r : Nat), g.wellFormed = true → r < rowCount g →
    ((emptyLevel g).after accesses).set r = (latestFirst (rowTags g r accesses)).take g.assoc

/-- 44_cache.md section 1: the rows and tags tell blocks apart exactly. Words as units and integer division are the spec's
decision D11 (notes/assumptions/8.md). -/
def Obligations.RowAndTagDetermineBlock : Prop :=
  ∀ (g : Geometry) (a b : Nat), g.wellFormed = true →
    rowCount g = g.size / (g.assoc * g.blockSize) ∧ rowOf g a < rowCount g ∧
    blockId g a = tagOf g a * rowCount g + rowOf g a ∧
    (rowOf g a = rowOf g b ∧ tagOf g a = tagOf g b ↔ a / g.blockSize = b / g.blockSize)

/-- R150: a read event, with no level, one level, and two levels: level 2 is looked up only when level 1 missed. -/
def Obligations.ReadEventLooksUpLevelTwoOnlyOnMiss : Prop :=
  ∀ (c1 c2 : CacheLevel) (e : AddressEvent), e.isWrite = false →
    let r1 := c1.access e.addr
    let r2 := c2.access e.addr
    Caches.off.handle e = (.off, []) ∧
    (Caches.one c1).handle e =
      (.one r1.level, [⟨.L1, if r1.hit then .HIT else .MISS, e.pc, e.addr, r1.row⟩]) ∧
    (r1.hit = true → (Caches.two c1 c2).handle e =
      (.two r1.level c2, [⟨.L1, .HIT, e.pc, e.addr, r1.row⟩])) ∧
    (r1.hit = false → (Caches.two c1 c2).handle e =
      (.two r1.level r2.level, [⟨.L1, .MISS, e.pc, e.addr, r1.row⟩,
        ⟨.L2, if r2.hit then .HIT else .MISS, e.pc, e.addr, r2.row⟩]))

/-- R151: a write event: every configured level is accessed whatever level 1 did, and the label is SW. -/
def Obligations.WriteEventAccessesEveryLevel : Prop :=
  ∀ (c1 c2 : CacheLevel) (e : AddressEvent), e.isWrite = true →
    let r1 := c1.access e.addr
    let r2 := c2.access e.addr
    Caches.off.handle e = (.off, []) ∧
    (Caches.one c1).handle e = (.one r1.level, [⟨.L1, .SW, e.pc, e.addr, r1.row⟩]) ∧
    (Caches.two c1 c2).handle e =
      (.two r1.level r2.level, [⟨.L1, .SW, e.pc, e.addr, r1.row⟩, ⟨.L2, .SW, e.pc, e.addr, r2.row⟩])

/-- R153: how many records a step adds, with which names and labels and in which order, by the level-1 result. -/
def Obligations.RecordsOfAStepHaveTheTableShape : Prop :=
  (∀ (i : Instr) (s t : State), isLoad i = false → isStore i = false → exec i s = .next t → t.trace = s.trace) ∧
  (∀ (rA rB : Reg) (imm7 : BitVec 7) (s t : State), exec (.lw rA rB imm7) s = .next t →
    RecordsAdded s t false (effAddr s rA imm7)) ∧
  (∀ (rA rB : Reg) (imm7 : BitVec 7) (s t : State), exec (.sw rA rB imm7) s = .next t →
    RecordsAdded s t true (effAddr s rA imm7))

/-! ### Reset, the host's transactions and the loader's contract -/

/-- R211: every piece of state after reset, every set of every level after any legal configuration, and the cell the
first step fetches. -/
def Obligations.ResetValues : Prop :=
  (∀ r, State.reset.readReg r = 0) ∧ State.reset.regs[0] = 0 ∧ State.reset.pc = 0 ∧ State.reset.halted = false ∧
  (∀ a, State.reset.mem.read a = 0) ∧
  ∀ cfg : CacheSpec, cfg.wellFormed = true → ∃ t, configure cfg State.reset = .next t ∧ t.caches.spec = cfg ∧
    (∀ c ∈ t.caches.levels, ∀ r, c.set r = []) ∧ t.fetch = t.mem.read 0

/-- 44_cache.md section 1: a level is legal exactly when its three integers are positive and it has a row; `configure`
in phase LOAD accepts a legal configuration and refuses any other, by the spec's decision D12
(notes/assumptions/9.md). 45_host_interface.md section 3: the host configures once; that a second `configure` is refused
is notes/assumptions/16.md. -/
def Obligations.ConfigureRefusesExactlyIllegalGeometry : Prop :=
  (∀ g : Geometry, g.wellFormed = true ↔ 1 ≤ g.size ∧ 1 ≤ g.assoc ∧ 1 ≤ g.blockSize ∧ 1 ≤ rowCount g) ∧
  ∀ (cfg : CacheSpec) (s : State), s.started = false →
    (s.configured = true → configure cfg s = .refused .configuredAlready) ∧
    (s.configured = false → configure cfg s =
      if cfg.wellFormed then .next { s with caches := emptyCaches cfg, configured := true }
      else .refused .illegalCacheConfig)

/-- A step under a configuration outside 44_cache.md section 1 is refused (D12, notes/assumptions/9.md). -/
def Obligations.StepRefusedUnderIllegalGeometry : Prop :=
  ∀ s : State, s.started = true → s.halted = false → s.caches.spec.wellFormed = false →
    step s = .refused .illegalCacheConfig

/-- 45_host_interface.md section 1 and 70_reset_and_hazards.md section 2: the first state of a run: the image in the
cells from 0, zero beyond it (D14, notes/assumptions/13.md), everything else at its reset value, phase RUN (D9). -/
def Obligations.BootPlacesImageFromCellZero : Prop :=
  ∀ (cfg : CacheSpec) (image : List Word), cfg.wellFormed = true → image.length ≤ 8192 →
    ∃ t, boot cfg image = .next t ∧ (∀ a, a < 8192 → t.mem.read a = image.getD a 0) ∧ (∀ r, t.readReg r = 0) ∧
      t.pc = 0 ∧ t.halted = false ∧ t.started = true ∧ t.configured = true ∧ t.caches = emptyCaches cfg ∧ t.trace = [] ∧ t.Inv

/-- 45_host_interface.md section 1: a machine-code file is legal exactly when it has at most 8192 lines, line `i` names
cell `i`, and each has sixteen digits. -/
def Obligations.LegalImageFilesAreInSequence : Prop :=
  ∀ lines : List ImageLine, imageWellFormed lines = true ↔
    lines.length ≤ 8192 ∧ ∀ i, (h : i < lines.length) → lines[i].addr = i ∧ lines[i].digits.length = 16

/-- The sixteen digits of a line spell a Word with the first digit as bit 15 (D7, notes/assumptions/20.md). -/
def Obligations.FirstDigitIsBitFifteen : Prop :=
  ∀ digits : List Bool, digits.length = 16 → ∀ i, (h : i < digits.length) →
    (wordOfDigits digits).getLsbD (15 - i) = digits[i]

/-- 45_host_interface.md section 2: `observe` shows the full pc (D23, notes/assumptions/27.md), the eight
registers and the 8192 cells. -/
def Obligations.ObserveShowsWholeState : Prop :=
  ∀ s : State, s.observe.pc = s.pc ∧ s.observe.halted = s.halted ∧ s.observe.config = s.caches.spec ∧
    s.observe.regs.length = 8 ∧ (∀ r : Reg, s.observe.regs[r.val]? = some (s.readReg r)) ∧
    s.observe.mem.length = 8192 ∧ ∀ a, a < 8192 → s.observe.mem[a]? = some (s.mem.read a)

/-- R155: the configuration echo, one record per configured level, level 1 first. -/
def Obligations.EchoListsLevelOneFirst : Prop :=
  configEcho .off = [] ∧
  (∀ g1, configEcho (.one g1) = [⟨.L1, g1.size, g1.assoc, g1.blockSize, rowCount g1⟩]) ∧
  ∀ g1 g2, configEcho (.two g1 g2) =
    [⟨.L1, g1.size, g1.assoc, g1.blockSize, rowCount g1⟩, ⟨.L2, g2.size, g2.assoc, g2.blockSize, rowCount g2⟩]

/-- 45_host_interface.md section 2: there is no final dump before the halt; after it the dump holds the pc, the eight
registers and the first 128 cells, and its text has them in this order, the memory eight words to a line. That the
pc is shown whole, not modulo 8192, is the spec's decision D23 (notes/assumptions/27.md). That the dump does not depend on
the cache is the model's choice (notes/assumptions/29.md), as are the layout and the decimal values of the
pc and the registers (notes/assumptions/30.md). -/
def Obligations.FinalDumpShowsHaltedState : Prop :=
  ∀ s : State, (s.halted = false → s.finalDump = none) ∧
    (s.halted = true → ∃ d, s.finalDump = some d ∧ d.pc = s.pc ∧ d.regs.length = 8 ∧ d.words.length = 128 ∧
      (∀ r : Reg, d.regs[r.val]? = some (s.readReg r)) ∧ (∀ a, a < 128 → d.words[a]? = some (s.mem.read a)) ∧
      (dumpText d).length = 25 ∧ (dumpText d)[0]? = some (decimal s.pc.toNat) ∧
      (∀ r : Reg, (dumpText d)[1 + r.val]? = some (['$'] ++ decimal r.val ++ ['='] ++ decimal (s.readReg r).toNat)) ∧
      ∀ i, i < 16 → (dumpText d)[9 + i]? =
        some (hexLine ((List.range 8).map (fun k => s.mem.read (8 * i + k)))))
end

