-- ==== Sys2Proof/Laws/Cache.lean ====
section
/-! SUPPORT. The laws of one access to a cache level, and that the Cache Simulator keeps its configuration and its
invariants. -/

namespace Sys2Proof.Machine

/-- The tag used is at the front (R148). -/
theorem touch_head (assoc tag : Nat) (S : List Nat) : (touch assoc tag S).head? = some tag := by
  unfold touch; split
  · rfl
  · split <;> rfl

/-- A set that holds no tag twice and at most `assoc` tags stays so (R148). -/
theorem touch_wf {assoc tag : Nat} {S : List Nat} (ha : 1 ≤ assoc) (h : setWf assoc S = true) :
    setWf assoc (touch assoc tag S) = true := by
  simp only [setWf, Bool.and_eq_true, decide_eq_true_eq] at h ⊢
  obtain ⟨hn, hl⟩ := h
  unfold touch
  split
  · next hm =>
    refine ⟨List.nodup_cons.mpr ⟨by simp, hn.filter _⟩, ?_⟩
    have : (S.filter (fun t => t != tag)).length < S.length := by
      apply List.length_filter_lt_length_iff_exists.mpr
      exact ⟨tag, hm, by simp⟩
    simp only [List.length_cons]; omega
  · next hm =>
    split
    · next he =>
      refine ⟨List.nodup_cons.mpr ⟨fun h => hm (List.mem_of_mem_dropLast h), hn.sublist (List.dropLast_sublist S)⟩, ?_⟩
      simp only [List.length_cons, List.length_dropLast]; omega
    · exact ⟨List.nodup_cons.mpr ⟨hm, hn⟩, by simp only [List.length_cons]; omega⟩

@[simp] theorem CacheLevel.access_geom (c : CacheLevel) (a : Nat) : (c.access a).level.geom = c.geom := rfl
@[simp] theorem CacheLevel.access_row (c : CacheLevel) (a : Nat) : (c.access a).row = rowOf c.geom a := rfl
@[simp] theorem CacheLevel.access_sets (c : CacheLevel) (a : Nat) : (c.access a).level.sets =
    c.sets.set (rowOf c.geom a) (touch c.geom.assoc (tagOf c.geom a) (c.set (rowOf c.geom a))) := rfl

theorem setWf_nil (assoc : Nat) : setWf assoc [] = true := by simp [setWf]

/-- Every set of a well-formed level is as R19 says. -/
theorem CacheLevel.set_wf {c : CacheLevel} (h : c.wf = true) (r : Nat) : setWf c.geom.assoc (c.set r) = true := by
  simp only [CacheLevel.wf, Bool.and_eq_true, List.all_eq_true] at h
  unfold CacheLevel.set
  by_cases hr : r < c.sets.length
  · rw [List.getD_eq_getElem _ _ hr]
    exact h.2 _ (List.getElem_mem hr)
  · rw [List.getD_eq_default _ _ (by omega)]
    exact setWf_nil _

/-- An access keeps a level well-formed. -/
theorem CacheLevel.access_wf {c : CacheLevel} (ha : 1 ≤ c.geom.assoc) (h : c.wf = true) (a : Nat) :
    (c.access a).level.wf = true := by
  have hs := touch_wf (tag := tagOf c.geom a) ha (CacheLevel.set_wf h (rowOf c.geom a))
  simp only [CacheLevel.wf, Bool.and_eq_true, decide_eq_true_eq, List.all_eq_true, CacheLevel.access_sets,
    CacheLevel.access_geom, List.length_set] at h ⊢
  refine ⟨h.1, fun S hS => ?_⟩
  rcases List.mem_or_eq_of_mem_set hS with hm | rfl
  · exact h.2 S hm
  · exact hs

/-- An access changes the sets of its own row alone (R146). -/
theorem CacheLevel.access_set_other (c : CacheLevel) (a : Nat) {r : Nat} (h : r ≠ rowOf c.geom a) :
    (c.access a).level.set r = c.set r := by
  have h' : rowOf c.geom a ≠ r := fun e => h e.symm
  simp [CacheLevel.set, List.getD_eq_getElem?_getD, List.getElem?_set_ne h']

/-- An access leaves its own row's set touched (R146). -/
theorem CacheLevel.access_set_self (c : CacheLevel) (a : Nat) (h : rowOf c.geom a < c.sets.length) :
    (c.access a).level.set (rowOf c.geom a) = touch c.geom.assoc (tagOf c.geom a) (c.set (rowOf c.geom a)) := by
  simp [CacheLevel.set, List.getD_eq_getElem?_getD, List.getElem?_set_self h]

/-- A legal geometry has at least one row (R142). -/
theorem rowCount_pos {g : Geometry} (h : g.wellFormed = true) : 1 ≤ rowCount g := by
  simp only [Geometry.wellFormed, Bool.and_eq_true, decide_eq_true_eq] at h
  obtain ⟨⟨⟨_, ha⟩, hb⟩, hs⟩ := h
  rw [rowCount, Nat.div_div_eq_div_mul]
  exact Nat.div_pos hs (Nat.mul_pos ha hb)

/-- The row of an access exists (R143). -/
theorem rowOf_lt {g : Geometry} (h : g.wellFormed = true) (a : Nat) : rowOf g a < rowCount g :=
  Nat.mod_lt _ (rowCount_pos h)

theorem emptyLevel_wf (g : Geometry) : (emptyLevel g).wf = true := by
  simp only [CacheLevel.wf, emptyLevel, Bool.and_eq_true, decide_eq_true_eq, List.all_eq_true, List.length_replicate]
  refine ⟨trivial, fun S hS => ?_⟩
  rw [List.eq_of_mem_replicate hS]
  exact setWf_nil _

theorem emptyCaches_wf (cfg : CacheSpec) : (emptyCaches cfg).wf = true := by
  cases cfg <;> simp [emptyCaches, Caches.wf, emptyLevel_wf]

@[simp] theorem emptyCaches_spec (cfg : CacheSpec) : (emptyCaches cfg).spec = cfg := by
  cases cfg <;> rfl

/-- Everything a read event can do (R150). -/
theorem Caches.onRead_cases (cs : Caches) (e : AddressEvent) :
    (cs = .off ∧ cs.onRead e = (.off, [])) ∨
    (∃ c1, cs = .one c1 ∧ cs.onRead e = (.one (c1.access e.addr).level,
      [recordOf .L1 (loadLabel (c1.access e.addr).hit) e (rowOf c1.geom e.addr)])) ∨
    (∃ c1 c2, cs = .two c1 c2 ∧ (c1.access e.addr).hit = true ∧ cs.onRead e =
      (.two (c1.access e.addr).level c2, [recordOf .L1 .HIT e (rowOf c1.geom e.addr)])) ∨
    (∃ c1 c2, cs = .two c1 c2 ∧ (c1.access e.addr).hit = false ∧ cs.onRead e =
      (.two (c1.access e.addr).level (c2.access e.addr).level,
        [recordOf .L1 .MISS e (rowOf c1.geom e.addr),
          recordOf .L2 (loadLabel (c2.access e.addr).hit) e (rowOf c2.geom e.addr)])) := by
  cases cs with
  | off => exact .inl ⟨rfl, rfl⟩
  | one c1 => exact .inr (.inl ⟨c1, rfl, rfl⟩)
  | two c1 c2 =>
    cases h : (c1.access e.addr).hit with
    | true => exact .inr (.inr (.inl ⟨c1, c2, rfl, h, by simp [Caches.onRead, h]⟩))
    | false => exact .inr (.inr (.inr ⟨c1, c2, rfl, h, by simp [Caches.onRead, h]⟩))

/-- Everything a write event can do (R151). -/
theorem Caches.onWrite_cases (cs : Caches) (e : AddressEvent) :
    (cs = .off ∧ cs.onWrite e = (.off, [])) ∨
    (∃ c1, cs = .one c1 ∧ cs.onWrite e = (.one (c1.access e.addr).level,
      [recordOf .L1 .SW e (rowOf c1.geom e.addr)])) ∨
    (∃ c1 c2, cs = .two c1 c2 ∧ cs.onWrite e = (.two (c1.access e.addr).level (c2.access e.addr).level,
      [recordOf .L1 .SW e (rowOf c1.geom e.addr), recordOf .L2 .SW e (rowOf c2.geom e.addr)])) := by
  cases cs with
  | off => exact .inl ⟨rfl, rfl⟩
  | one c1 => exact .inr (.inl ⟨c1, rfl, rfl⟩)
  | two c1 c2 => exact .inr (.inr ⟨c1, c2, rfl, rfl⟩)

/-- An address event changes no configuration (R140). -/
@[simp] theorem Caches.handle_spec (cs : Caches) (e : AddressEvent) : (cs.handle e).1.spec = cs.spec := by
  unfold Caches.handle
  split
  · obtain ⟨rfl, h⟩ | ⟨_, rfl, h⟩ | ⟨_, _, rfl, h⟩ := cs.onWrite_cases e <;> rw [h] <;> rfl
  · obtain ⟨rfl, h⟩ | ⟨_, rfl, h⟩ | ⟨_, _, rfl, _, h⟩ | ⟨_, _, rfl, _, h⟩ := cs.onRead_cases e <;> rw [h] <;> rfl

theorem assoc_pos {g : Geometry} (h : g.wellFormed = true) : 1 ≤ g.assoc := by
  simp only [Geometry.wellFormed, Bool.and_eq_true, decide_eq_true_eq] at h
  exact h.1.1.2

/-- An address event keeps every level well-formed (R19, R148). -/
theorem Caches.handle_wf {cs : Caches} (hl : specAccepted cs.spec = true) (h : cs.wf = true) (e : AddressEvent) :
    (cs.handle e).1.wf = true := by
  unfold Caches.handle
  split
  · obtain ⟨rfl, he⟩ | ⟨c1, rfl, he⟩ | ⟨c1, c2, rfl, he⟩ := cs.onWrite_cases e
    · rw [he]; rfl
    · rw [he]; exact CacheLevel.access_wf (assoc_pos hl) h e.addr
    · simp only [specAccepted, Caches.spec, CacheSpec.wellFormed, Caches.wf, Bool.and_eq_true] at hl h
      rw [he]
      simp [Caches.wf, CacheLevel.access_wf (assoc_pos hl.1) h.1, CacheLevel.access_wf (assoc_pos hl.2) h.2]
  · obtain ⟨rfl, he⟩ | ⟨c1, rfl, he⟩ | ⟨c1, c2, rfl, _, he⟩ | ⟨c1, c2, rfl, _, he⟩ := cs.onRead_cases e
    · rw [he]; rfl
    · rw [he]; exact CacheLevel.access_wf (assoc_pos hl) h e.addr
    · simp only [specAccepted, Caches.spec, CacheSpec.wellFormed, Caches.wf, Bool.and_eq_true] at hl h
      rw [he]
      simp [Caches.wf, CacheLevel.access_wf (assoc_pos hl.1) h.1, h.2]
    · simp only [specAccepted, Caches.spec, CacheSpec.wellFormed, Caches.wf, Bool.and_eq_true] at hl h
      rw [he]
      simp [Caches.wf, CacheLevel.access_wf (assoc_pos hl.1) h.1, CacheLevel.access_wf (assoc_pos hl.2) h.2]

end Sys2Proof.Machine
end

