-- ==== Sys2Proof/Laws/State.lean ====
section
/-! SUPPORT. One lemma per field per update of State, so that no proof unfolds a record update. -/

namespace Sys2Proof.Machine.State

/-! ### setPc -/

@[simp] theorem setPc_regs (s : State) (t : Word) : (s.setPc t).regs = s.regs := rfl
@[simp] theorem setPc_pc (s : State) (t : Word) : (s.setPc t).pc = t := rfl
@[simp] theorem setPc_halted (s : State) (t : Word) : (s.setPc t).halted = s.halted := rfl
@[simp] theorem setPc_mem (s : State) (t : Word) : (s.setPc t).mem = s.mem := rfl
@[simp] theorem setPc_caches (s : State) (t : Word) : (s.setPc t).caches = s.caches := rfl
@[simp] theorem setPc_started (s : State) (t : Word) : (s.setPc t).started = s.started := rfl
@[simp] theorem setPc_configured (s : State) (t : Word) : (s.setPc t).configured = s.configured := rfl
@[simp] theorem setPc_trace (s : State) (t : Word) : (s.setPc t).trace = s.trace := rfl

/-! ### raiseHalt -/

@[simp] theorem raiseHalt_regs (s : State) : (s.raiseHalt).regs = s.regs := rfl
@[simp] theorem raiseHalt_pc (s : State) : (s.raiseHalt).pc = s.pc := rfl
@[simp] theorem raiseHalt_halted (s : State) : (s.raiseHalt).halted = true := rfl
@[simp] theorem raiseHalt_mem (s : State) : (s.raiseHalt).mem = s.mem := rfl
@[simp] theorem raiseHalt_caches (s : State) : (s.raiseHalt).caches = s.caches := rfl
@[simp] theorem raiseHalt_started (s : State) : (s.raiseHalt).started = s.started := rfl
@[simp] theorem raiseHalt_configured (s : State) : (s.raiseHalt).configured = s.configured := rfl
@[simp] theorem raiseHalt_trace (s : State) : (s.raiseHalt).trace = s.trace := rfl

/-! ### store -/

@[simp] theorem store_regs (s : State) (a : Nat) (v : Word) : (s.store a v).regs = s.regs := rfl
@[simp] theorem store_pc (s : State) (a : Nat) (v : Word) : (s.store a v).pc = s.pc := rfl
@[simp] theorem store_halted (s : State) (a : Nat) (v : Word) : (s.store a v).halted = s.halted := rfl
@[simp] theorem store_mem (s : State) (a : Nat) (v : Word) : (s.store a v).mem = s.mem.write a v := rfl
@[simp] theorem store_caches (s : State) (a : Nat) (v : Word) : (s.store a v).caches = s.caches := rfl
@[simp] theorem store_started (s : State) (a : Nat) (v : Word) : (s.store a v).started = s.started := rfl
@[simp] theorem store_configured (s : State) (a : Nat) (v : Word) : (s.store a v).configured = s.configured := rfl
@[simp] theorem store_trace (s : State) (a : Nat) (v : Word) : (s.store a v).trace = s.trace := rfl

/-! ### writeReg -/

@[simp] theorem writeReg_regs (s : State) (r : Reg) (v : Word) : (s.writeReg r v).regs = s.regs.set r v := rfl
@[simp] theorem writeReg_pc (s : State) (r : Reg) (v : Word) : (s.writeReg r v).pc = s.pc := rfl
@[simp] theorem writeReg_halted (s : State) (r : Reg) (v : Word) : (s.writeReg r v).halted = s.halted := rfl
@[simp] theorem writeReg_mem (s : State) (r : Reg) (v : Word) : (s.writeReg r v).mem = s.mem := rfl
@[simp] theorem writeReg_caches (s : State) (r : Reg) (v : Word) : (s.writeReg r v).caches = s.caches := rfl
@[simp] theorem writeReg_started (s : State) (r : Reg) (v : Word) : (s.writeReg r v).started = s.started := rfl
@[simp] theorem writeReg_configured (s : State) (r : Reg) (v : Word) : (s.writeReg r v).configured = s.configured := rfl
@[simp] theorem writeReg_trace (s : State) (r : Reg) (v : Word) : (s.writeReg r v).trace = s.trace := rfl

/-! ### forceZero -/

@[simp] theorem forceZero_regs (s : State) : (s.forceZero).regs = s.regs.set 0 0 := rfl
@[simp] theorem forceZero_pc (s : State) : (s.forceZero).pc = s.pc := rfl
@[simp] theorem forceZero_halted (s : State) : (s.forceZero).halted = s.halted := rfl
@[simp] theorem forceZero_mem (s : State) : (s.forceZero).mem = s.mem := rfl
@[simp] theorem forceZero_caches (s : State) : (s.forceZero).caches = s.caches := rfl
@[simp] theorem forceZero_started (s : State) : (s.forceZero).started = s.started := rfl
@[simp] theorem forceZero_configured (s : State) : (s.forceZero).configured = s.configured := rfl
@[simp] theorem forceZero_trace (s : State) : (s.forceZero).trace = s.trace := rfl

/-! ### event -/

@[simp] theorem event_regs (s : State) (w : Bool) (a : Nat) : (s.event w a).regs = s.regs := rfl
@[simp] theorem event_pc (s : State) (w : Bool) (a : Nat) : (s.event w a).pc = s.pc := rfl
@[simp] theorem event_halted (s : State) (w : Bool) (a : Nat) : (s.event w a).halted = s.halted := rfl
@[simp] theorem event_mem (s : State) (w : Bool) (a : Nat) : (s.event w a).mem = s.mem := rfl
@[simp] theorem event_caches (s : State) (w : Bool) (a : Nat) : (s.event w a).caches = (s.caches.handle ⟨w, a, s.pc⟩).1 := rfl
@[simp] theorem event_started (s : State) (w : Bool) (a : Nat) : (s.event w a).started = s.started := rfl
@[simp] theorem event_configured (s : State) (w : Bool) (a : Nat) : (s.event w a).configured = s.configured := rfl
@[simp] theorem event_trace (s : State) (w : Bool) (a : Nat) : (s.event w a).trace = s.trace ++ (s.caches.handle ⟨w, a, s.pc⟩).2 := rfl

/-! ### setCaches -/

@[simp] theorem setCaches_regs (s : State) (g : CacheSpec) : (s.setCaches g).regs = s.regs := rfl
@[simp] theorem setCaches_pc (s : State) (g : CacheSpec) : (s.setCaches g).pc = s.pc := rfl
@[simp] theorem setCaches_halted (s : State) (g : CacheSpec) : (s.setCaches g).halted = s.halted := rfl
@[simp] theorem setCaches_mem (s : State) (g : CacheSpec) : (s.setCaches g).mem = s.mem := rfl
@[simp] theorem setCaches_caches (s : State) (g : CacheSpec) : (s.setCaches g).caches = emptyCaches g := rfl
@[simp] theorem setCaches_started (s : State) (g : CacheSpec) : (s.setCaches g).started = s.started := rfl
@[simp] theorem setCaches_configured (s : State) (g : CacheSpec) : (s.setCaches g).configured = true := rfl
@[simp] theorem setCaches_trace (s : State) (g : CacheSpec) : (s.setCaches g).trace = s.trace := rfl

/-! ### The state after reset -/

@[simp] theorem reset_pc : reset.pc = 0 := rfl
@[simp] theorem reset_halted : reset.halted = false := rfl
@[simp] theorem reset_mem : reset.mem = ⟨[]⟩ := rfl
@[simp] theorem reset_caches : reset.caches = .off := rfl
@[simp] theorem reset_started : reset.started = false := rfl
@[simp] theorem reset_configured : reset.configured = false := rfl
@[simp] theorem reset_trace : reset.trace = [] := rfl

end Sys2Proof.Machine.State
end

