-- ==== Sys2Proof/Laws/Registers.lean ====
section
/-! SUPPORT. What reading a register gives after each operation. -/

namespace Sys2Proof.Machine.State

@[simp] theorem readReg_zero (s : State) : s.readReg 0 = 0 := rfl

theorem readReg_of_ne_zero (s : State) {r : Reg} (h : r ≠ 0) : s.readReg r = s.regs[r] := by
  simp [readReg, h]

/-- Reading depends on the register file alone. -/
theorem readReg_congr {s t : State} (h : t.regs = s.regs) (q : Reg) : t.readReg q = s.readReg q := by
  simp [readReg, h]

@[simp] theorem readReg_setPc (s : State) (t : Word) (q : Reg) : (s.setPc t).readReg q = s.readReg q := rfl
@[simp] theorem readReg_raiseHalt (s : State) (q : Reg) : s.raiseHalt.readReg q = s.readReg q := rfl
@[simp] theorem readReg_store (s : State) (a : Nat) (v : Word) (q : Reg) :
    (s.store a v).readReg q = s.readReg q := rfl
@[simp] theorem readReg_event (s : State) (w : Bool) (a : Nat) (q : Reg) :
    (s.event w a).readReg q = s.readReg q := rfl

/-- The forced write at the end of a step changes what no register reads as. -/
@[simp] theorem readReg_forceZero (s : State) (q : Reg) : s.forceZero.readReg q = s.readReg q := by
  by_cases h : q = 0
  · simp [h]
  · have h' : ¬(0 = q.val) := fun e => h (Fin.ext e.symm)
    simp [readReg, h, h']

/-- A write is seen by the register written, but for register 0, and by no other. -/
theorem readReg_writeReg (s : State) (r : Reg) (v : Word) (q : Reg) :
    (s.writeReg r v).readReg q = if q = r ∧ q ≠ 0 then v else s.readReg q := by
  by_cases h : q = 0
  · simp [h]
  · by_cases e : q = r
    · subst e
      simp [readReg, h]
    · have e' : ¬(r.val = q.val) := fun x => e (Fin.ext x.symm)
      simp [readReg, h, e, e']

/-- After the forced write, register 0 is stored as 0. -/
@[simp] theorem forceZero_slot (s : State) : s.forceZero.regs[0] = 0 := by
  simp

theorem effAddr_lt (s : State) (rA : Reg) (imm7 : BitVec 7) : effAddr s rA imm7 < 8192 :=
  Nat.mod_lt _ (by decide)

/-- The effective address depends on the base register alone. -/
theorem effAddr_congr {s t : State} (rA : Reg) (imm7 : BitVec 7) (h : t.readReg rA = s.readReg rA) :
    effAddr t rA imm7 = effAddr s rA imm7 := by
  simp [effAddr, h]

end Sys2Proof.Machine.State
end

