-- ==== Sys2Proof/Laws/Step.lean ====
section
/-! SUPPORT. The ends of a step, the phases, and what a step that goes on must have been. -/

namespace Sys2Proof.Machine

theorem goTo_eq (s : State) (t : Word) : goTo s t = .next (s.setPc t).forceZero := rfl
theorem advance_eq (s : State) : advance s = .next (s.setPc (s.pc + 1)).forceZero := rfl
theorem haltHere_eq (s : State) : haltHere s = .next s.raiseHalt.forceZero := rfl

/-- A control transfer always goes on or halts; it never stops. -/
theorem transfer_eq (s : State) (t : Word) (b : Bool) :
    transfer s t b = .next (if b then s.raiseHalt.forceZero else (s.setPc t).forceZero) := by
  cases b <;> rfl

theorem phase_run_iff (s : State) : s.phase = .run ↔ s.started = true ∧ s.halted = false := by
  unfold State.phase; cases s.started <;> cases s.halted <;> simp

theorem phase_halted_iff (s : State) : s.phase = .halted ↔ s.started = true ∧ s.halted = true := by
  unfold State.phase; cases s.started <;> cases s.halted <;> simp

theorem phase_load_iff (s : State) : s.phase = .load ↔ s.started = false := by
  unfold State.phase; cases s.started <;> cases s.halted <;> simp

/-- A step that goes on was taken in phase RUN, under a legal configuration, by the decoded instruction. -/
theorem step_next_cases {s t : State} (h : step s = .next t) :
    s.started = true ∧ s.halted = false ∧ s.configLegal = true ∧ exec (decode s.fetch) s = .next t := by
  unfold step at h
  cases hp : s.phase <;> simp only [hp] at h
  · cases h
  · obtain ⟨h1, h2⟩ := (phase_run_iff s).mp hp
    split at h
    · next hc => exact ⟨h1, h2, hc, h⟩
    · cases h
  · cases h

/-! ### Runs -/

theorem run_zero (s : State) : core.run 0 s = .next s := by simp only [Host.Core.run]

theorem run_succ_next {s t : State} (h : step s = .next t) (k : Nat) : core.run (k + 1) s = core.run k t := by
  have h' : core.step s = .next t := h
  simp only [Host.Core.run, h']

theorem run_succ_fault {s : State} {e : Fault} (h : step s = .fault e) (k : Nat) :
    core.run (k + 1) s = .fault e := by
  have h' : core.step s = .fault e := h
  simp only [Host.Core.run, h']

theorem run_succ_refused {s : State} {e : Refusal} (h : step s = .refused e) (k : Nat) :
    core.run (k + 1) s = .refused e := by
  have h' : core.step s = .refused e := h
  simp only [Host.Core.run, h']

end Sys2Proof.Machine
end

