-- ==== Sys2Proof/Laws/Exec.lean ====
section
/-! SUPPORT. One equation per instruction: the state it ends its step at. -/

namespace Sys2Proof.Machine

variable (s : State)

theorem exec_add (rA rB rC : Reg) : exec (.add rA rB rC) s =
    .next ((s.writeReg rC (s.readReg rA + s.readReg rB)).setPc (s.pc + 1)).forceZero := rfl

theorem exec_sub (rA rB rC : Reg) : exec (.sub rA rB rC) s =
    .next ((s.writeReg rC (s.readReg rA - s.readReg rB)).setPc (s.pc + 1)).forceZero := rfl

theorem exec_or (rA rB rC : Reg) : exec (.or rA rB rC) s =
    .next ((s.writeReg rC (s.readReg rA ||| s.readReg rB)).setPc (s.pc + 1)).forceZero := rfl

theorem exec_and (rA rB rC : Reg) : exec (.and rA rB rC) s =
    .next ((s.writeReg rC (s.readReg rA &&& s.readReg rB)).setPc (s.pc + 1)).forceZero := rfl

theorem exec_slt (rA rB rC : Reg) : exec (.slt rA rB rC) s =
    .next ((s.writeReg rC (lessThan (s.readReg rA) (s.readReg rB))).setPc (s.pc + 1)).forceZero := rfl

theorem exec_addi (rA rB : Reg) (imm7 : BitVec 7) : exec (.addi rA rB imm7) s =
    .next ((s.writeReg rB (s.readReg rA + simm7 imm7)).setPc (s.pc + 1)).forceZero := rfl

theorem exec_slti (rA rB : Reg) (imm7 : BitVec 7) : exec (.slti rA rB imm7) s =
    .next ((s.writeReg rB (lessThan (s.readReg rA) (simm7 imm7))).setPc (s.pc + 1)).forceZero := rfl

theorem exec_reservedFn5 (ign : BitVec 9) : exec (.reservedFn5 ign) s = .next (s.setPc (s.pc + 1)).forceZero := rfl

theorem exec_reservedFn6 (ign : BitVec 9) : exec (.reservedFn6 ign) s = .next (s.setPc (s.pc + 1)).forceZero := rfl

theorem exec_reservedFn7 (ign : BitVec 9) : exec (.reservedFn7 ign) s = .next (s.setPc (s.pc + 1)).forceZero := rfl

theorem exec_reservedFn9 (ign : BitVec 9) : exec (.reservedFn9 ign) s = .next (s.setPc (s.pc + 1)).forceZero := rfl

theorem exec_reservedFn10 (ign : BitVec 9) : exec (.reservedFn10 ign) s = .next (s.setPc (s.pc + 1)).forceZero := rfl

theorem exec_reservedFn11 (ign : BitVec 9) : exec (.reservedFn11 ign) s = .next (s.setPc (s.pc + 1)).forceZero := rfl

theorem exec_reservedFn12 (ign : BitVec 9) : exec (.reservedFn12 ign) s = .next (s.setPc (s.pc + 1)).forceZero := rfl

theorem exec_reservedFn13 (ign : BitVec 9) : exec (.reservedFn13 ign) s = .next (s.setPc (s.pc + 1)).forceZero := rfl

theorem exec_reservedFn14 (ign : BitVec 9) : exec (.reservedFn14 ign) s = .next (s.setPc (s.pc + 1)).forceZero := rfl

theorem exec_reservedFn15 (ign : BitVec 9) : exec (.reservedFn15 ign) s = .next (s.setPc (s.pc + 1)).forceZero := rfl

theorem exec_jr (rA : Reg) (ign : BitVec 6) : exec (.jr rA ign) s =
    .next (if jrHalts s (s.readReg rA) then s.raiseHalt else s.setPc (s.readReg rA)).forceZero := by
  cases h : jrHalts s (s.readReg rA) <;> simp [exec, execJr, transfer_eq, h]

theorem exec_j (imm13 : BitVec 13) : exec (.j imm13) s =
    .next (if jHalts s (simm13 imm13) then s.raiseHalt else s.setPc (simm13 imm13)).forceZero := by
  cases h : jHalts s (simm13 imm13) <;> simp [exec, execJ, transfer_eq, h]

theorem exec_jal (imm13 : BitVec 13) : exec (.jal imm13) s =
    .next (if jalHalts s (simm13 imm13) then (s.writeReg Config.link (s.pc + 1)).raiseHalt
      else (s.writeReg Config.link (s.pc + 1)).setPc (simm13 imm13)).forceZero := by
  cases h : jalHalts s (simm13 imm13) <;> simp [exec, execJal, transfer_eq, h, linkValue, State.nextPc]

theorem exec_jeq (rA rB : Reg) (imm7 : BitVec 7) : exec (.jeq rA rB imm7) s =
    .next (s.setPc (if equalWords (s.readReg rA) (s.readReg rB) then branchTarget s imm7 else s.pc + 1)).forceZero := by
  cases h : equalWords (s.readReg rA) (s.readReg rB) <;> simp [exec, execJeq, goTo_eq, advance_eq, h]

theorem exec_lw (rA rB : Reg) (imm7 : BitVec 7) : exec (.lw rA rB imm7) s =
    .next (((s.writeReg rB (s.mem.read (effAddr s rA imm7))).event false (effAddr s rA imm7)).setPc
      (s.pc + 1)).forceZero := rfl

theorem exec_sw (rA rB : Reg) (imm7 : BitVec 7) : exec (.sw rA rB imm7) s =
    .next (((s.store (effAddr s rA imm7) (s.readReg rB)).event true (effAddr s rA imm7)).setPc
      (s.pc + 1)).forceZero := rfl

end Sys2Proof.Machine
end

