-- ==== Sys2Proof/Laws/HostPort.lean ====
section
/-! SUPPORT. What each transaction of the host answers, and what it must have been where it answers a next state. -/

namespace Sys2Proof.Machine

theorem inLoad_eq {s : State} (h : s.started = false) (r : Result) : inLoad s r = r := by
  simp only [inLoad, (phase_load_iff s).mpr h, if_true]

theorem inLoad_next_cases {s t : State} {r : Result} (h : inLoad s r = .next t) : s.started = false ∧ r = .next t := by
  unfold inLoad at h
  split at h
  · next hp => exact ⟨(phase_load_iff s).mp hp, h⟩
  · cases h

/-- The one `configure` after reset. -/
theorem configure_eq {s : State} (h : s.started = false) (hc : s.configured = false) (cfg : CacheSpec) :
    configure cfg s = if cfg.wellFormed then .next (s.setCaches cfg) else .refused .illegalCacheConfig := by
  simp only [configure, inLoad_eq h, hc, Bool.false_eq_true, if_false]
  rfl

/-- A second `configure`. -/
theorem configure_again_eq {s : State} (h : s.started = false) (hc : s.configured = true) (cfg : CacheSpec) :
    configure cfg s = .refused .configuredAlready := by
  simp [configure, inLoad_eq h, hc]

theorem configure_next_cases {cfg : CacheSpec} {s t : State} (h : configure cfg s = .next t) :
    s.started = false ∧ s.configured = false ∧ cfg.wellFormed = true ∧ t = s.setCaches cfg := by
  obtain ⟨hs, h'⟩ := inLoad_next_cases h
  cases hc : s.configured
  · rw [configure_eq hs hc] at h
    cases hw : cfg.wellFormed <;> simp only [hw, if_true, Bool.false_eq_true, if_false] at h <;> cases h
    exact ⟨hs, rfl, rfl, rfl⟩
  · simp [hc] at h'

theorem loadWord_next_cases {a : BitVec 13} {v : Word} {s t : State} (h : loadWord a v s = .next t) :
    s.started = false ∧ t = s.store a.toNat v := by
  obtain ⟨hs, h'⟩ := inLoad_next_cases h
  cases h'
  exact ⟨hs, rfl⟩

theorem start_next_cases {s t : State} (h : start s = .next t) : s.started = false ∧ t = { s with started := true } := by
  obtain ⟨hs, h'⟩ := inLoad_next_cases h
  cases h'
  exact ⟨hs, rfl⟩

end Sys2Proof.Machine
end

