-- ==== Sys2Proof/Laws/Memory.lean ====
section
/-! SUPPORT. The laws of memory: what a read gives after a write, and that a write keeps the canonical form. -/

namespace Sys2Proof.Machine

theorem lookupCell_filter_self (a : Nat) (l : List (Nat × Word)) :
    lookupCell a (l.filter (fun c => c.1 != a)) = Config.blankCell := by
  induction l with
  | nil => rfl
  | cons c rest ih =>
    by_cases h : c.1 = a
    · simpa [h] using ih
    · simpa [h, lookupCell] using ih

theorem lookupCell_filter_other {a b : Nat} (h : b ≠ a) (l : List (Nat × Word)) :
    lookupCell b (l.filter (fun c => c.1 != a)) = lookupCell b l := by
  induction l with
  | nil => rfl
  | cons c rest ih =>
    by_cases hc : c.1 = a
    · have : ¬(a = b) := fun e => h e.symm
      simpa [hc, lookupCell, this] using ih
    · simp [hc, lookupCell, ih]

/-- Inserting a cell gives its address its value and leaves every other address as it was. -/
theorem lookupCell_insertCell (a b : Nat) (v : Word) (l : List (Nat × Word)) (hl : ∀ c ∈ l, c.1 ≠ a) :
    lookupCell b (insertCell a v l) = if a = b then v else lookupCell b l := by
  induction l with
  | nil => simp [insertCell, lookupCell]
  | cons c rest ih =>
    have hc : c.1 ≠ a := hl c (by simp)
    have ih := ih (fun d hd => hl d (List.mem_cons_of_mem _ hd))
    by_cases hlt : a < c.1
    · simp [insertCell, hlt, lookupCell]
    · by_cases hk : c.1 = b
      · have hab : ¬(a = b) := fun e => hc (hk.trans e.symm)
        simp only [insertCell, hlt, if_false, lookupCell]
        simp [hk, hab]
      · simp [insertCell, hlt, lookupCell, hk, ih]

/-- A read reduces its address modulo 8192 (R30). -/
theorem Memory.read_mod (m : Memory) (a : Nat) : m.read (a % 8192) = m.read a := by
  simp [Memory.read, cellIndex, Config.memWords]

/-! ### The canonical form -/

theorem cellsWf_mono {low low' : Nat} (h : low' ≤ low) {l : List (Nat × Word)} (hl : cellsWf low l = true) :
    cellsWf low' l = true := by
  cases l with
  | nil => rfl
  | cons c rest =>
    simp only [cellsWf, Bool.and_eq_true, decide_eq_true_eq] at hl ⊢
    exact ⟨⟨⟨by omega, hl.1.1.2⟩, hl.1.2⟩, hl.2⟩

theorem cellsWf_filter {low : Nat} (p : Nat × Word → Bool) {l : List (Nat × Word)} (hl : cellsWf low l = true) :
    cellsWf low (l.filter p) = true := by
  induction l generalizing low with
  | nil => rfl
  | cons c rest ih =>
    simp only [cellsWf, Bool.and_eq_true, decide_eq_true_eq] at hl
    have hr := ih hl.2
    by_cases hp : p c = true
    · simp only [List.filter_cons, hp, if_true, cellsWf, Bool.and_eq_true, decide_eq_true_eq]
      exact ⟨hl.1, hr⟩
    · simp only [List.filter_cons, hp]
      exact cellsWf_mono (by omega) hr

theorem cellsWf_insertCell {low a : Nat} {v : Word} {l : List (Nat × Word)} (hl : cellsWf low l = true)
    (hlow : low ≤ a) (ha : a < Config.memWords) (hv : v ≠ Config.blankCell) (hne : ∀ c ∈ l, c.1 ≠ a) :
    cellsWf low (insertCell a v l) = true := by
  induction l generalizing low with
  | nil => simp [insertCell, cellsWf, hlow, ha, hv]
  | cons c rest ih =>
    have hc : c.1 ≠ a := hne c (by simp)
    simp only [cellsWf, Bool.and_eq_true, decide_eq_true_eq] at hl
    by_cases hlt : a < c.1
    · simp only [insertCell, hlt, if_true, cellsWf, Bool.and_eq_true, decide_eq_true_eq]
      exact ⟨⟨⟨hlow, ha⟩, hv⟩, ⟨⟨by omega, hl.1.1.2⟩, hl.1.2⟩, hl.2⟩
    · simp only [insertCell, hlt, if_false, cellsWf, Bool.and_eq_true, decide_eq_true_eq]
      exact ⟨hl.1, ih hl.2 (by omega) (fun d hd => hne d (List.mem_cons_of_mem _ hd))⟩

/-- A write keeps the canonical form. -/
theorem Memory.write_wf {m : Memory} (h : m.wf = true) (a : Nat) (v : Word) : (m.write a v).wf = true := by
  have hf := cellsWf_filter (fun c => c.1 != cellIndex a) h
  unfold Memory.write Memory.wf
  by_cases hv : v = Config.blankCell
  · simpa [hv] using hf
  · simp only [hv, if_false]
    exact cellsWf_insertCell hf (Nat.zero_le _) (Nat.mod_lt _ (by decide)) hv (fun c hc => by simpa using (List.mem_filter.mp hc).2)

/-- The memory of the reset state has the canonical form. -/
theorem State.reset_mem_wf : State.reset.mem.wf = true := rfl

theorem lookupCell_below {low a : Nat} (h : a < low) {l : List (Nat × Word)} (hl : cellsWf low l = true) :
    lookupCell a l = Config.blankCell := by
  induction l generalizing low with
  | nil => rfl
  | cons c rest ih =>
    simp only [cellsWf, Bool.and_eq_true, decide_eq_true_eq] at hl
    have : ¬(c.1 = a) := by omega
    simp only [lookupCell, this, if_false]
    exact ih (by omega) hl.2

end Sys2Proof.Machine
end

