-- ==== Sys2Proof/Laws/PerInstr.lean ====
section
/-! SUPPORT. Statements about every instruction, one lemma per constructor. -/

namespace Sys2Proof.Laws

/-- The opcode of an instruction (the `op` column of R55). -/
def opcodeOf : Instr → Nat
  | .add .. | .sub .. | .or .. | .and .. | .slt .. | .jr .. => 0
  | .reservedFn5 _ | .reservedFn6 _ | .reservedFn7 _ | .reservedFn9 _ | .reservedFn10 _ => 0
  | .reservedFn11 _ | .reservedFn12 _ | .reservedFn13 _ | .reservedFn14 _ | .reservedFn15 _ => 0
  | .addi .. => 1
  | .j _ => 2
  | .jal _ => 3
  | .lw .. => 4
  | .sw .. => 5
  | .jeq .. => 6
  | .slti .. => 7

/-- The function of an opcode-0 instruction (the `fn` column of R55). -/
def functionOf : Instr → Option Nat
  | .add .. => some 0
  | .sub .. => some 1
  | .or .. => some 2
  | .and .. => some 3
  | .slt .. => some 4
  | .jr .. => some 8
  | .reservedFn5 _ => some 5
  | .reservedFn6 _ => some 6
  | .reservedFn7 _ => some 7
  | .reservedFn9 _ => some 9
  | .reservedFn10 _ => some 10
  | .reservedFn11 _ => some 11
  | .reservedFn12 _ => some 12
  | .reservedFn13 _ => some 13
  | .reservedFn14 _ => some 14
  | .reservedFn15 _ => some 15
  | .addi .. | .j _ | .jal _ | .lw .. | .sw .. | .jeq .. | .slti .. => none

/-- The word of `i` carries, in the places the decoder reads, the opcode and function of its row of the map. -/
def RowOfEncoding.Statement (i : Instr) : Prop :=
  (fieldsOf (encode i)).op.val = opcodeOf i ∧ ∀ k ∈ functionOf i, (fieldsOf (encode i)).fn.val = k

/-! ### One lemma per format -/

theorem rowOf_encodeRRR {fn : Nat} (hfn : fn < 16) (rA rB rC : Reg) :
    (fieldsOf (encodeRRR fn rA rB rC)).op.val = 0 ∧ (fieldsOf (encodeRRR fn rA rB rC)).fn.val = fn := by
  have := rA.isLt; have := rB.isLt; have := rC.isLt
  simp only [fieldsOf, encodeRRR, Fin.ofNat, BitVec.toNat_ofNat]; omega

theorem rowOf_encodeJr (rA : Reg) (ign : BitVec 6) :
    (fieldsOf (encodeJr rA ign)).op.val = 0 ∧ (fieldsOf (encodeJr rA ign)).fn.val = 8 := by
  have := rA.isLt; have := ign.isLt
  simp only [fieldsOf, encodeJr, Fin.ofNat, BitVec.toNat_ofNat]; omega

theorem rowOf_encodeReserved {fn : Nat} (hfn : fn < 16) (ign : BitVec 9) :
    (fieldsOf (encodeReserved fn ign)).op.val = 0 ∧ (fieldsOf (encodeReserved fn ign)).fn.val = fn := by
  have := ign.isLt
  simp only [fieldsOf, encodeReserved, Fin.ofNat, BitVec.toNat_ofNat]; omega

theorem rowOf_encodeRRI {op : Nat} (hop : op < 8) (rA rB : Reg) (imm7 : BitVec 7) :
    (fieldsOf (encodeRRI op rA rB imm7)).op.val = op := by
  have := rA.isLt; have := rB.isLt; have := imm7.isLt
  simp only [fieldsOf, encodeRRI, Fin.ofNat, BitVec.toNat_ofNat]; omega

theorem rowOf_encodeJ {op : Nat} (hop : op < 8) (imm13 : BitVec 13) : (fieldsOf (encodeJ op imm13)).op.val = op := by
  have := imm13.isLt
  simp only [fieldsOf, encodeJ, Fin.ofNat, BitVec.toNat_ofNat]; omega

/-- The statement of a row with a function. -/
theorem rowOf_function {i : Instr} {fn : Nat} (ho : opcodeOf i = 0) (hf : functionOf i = some fn)
    (h : (fieldsOf (encode i)).op.val = 0 ∧ (fieldsOf (encode i)).fn.val = fn) : RowOfEncoding.Statement i :=
  ⟨h.1.trans ho.symm, fun k hk => by rw [hf] at hk; exact h.2.trans (Option.some.inj hk)⟩

/-- The statement of a row without a function. -/
theorem rowOf_opcode {i : Instr} (hf : functionOf i = none) (h : (fieldsOf (encode i)).op.val = opcodeOf i) :
    RowOfEncoding.Statement i :=
  ⟨h, fun k hk => by rw [hf] at hk; cases hk⟩

/-! ### One lemma per constructor -/

theorem RowOfEncoding.add (rA rB rC : Reg) : RowOfEncoding.Statement (.add rA rB rC) :=
  rowOf_function rfl rfl (rowOf_encodeRRR (by decide) rA rB rC)

theorem RowOfEncoding.sub (rA rB rC : Reg) : RowOfEncoding.Statement (.sub rA rB rC) :=
  rowOf_function rfl rfl (rowOf_encodeRRR (by decide) rA rB rC)

theorem RowOfEncoding.or (rA rB rC : Reg) : RowOfEncoding.Statement (.or rA rB rC) :=
  rowOf_function rfl rfl (rowOf_encodeRRR (by decide) rA rB rC)

theorem RowOfEncoding.and (rA rB rC : Reg) : RowOfEncoding.Statement (.and rA rB rC) :=
  rowOf_function rfl rfl (rowOf_encodeRRR (by decide) rA rB rC)

theorem RowOfEncoding.slt (rA rB rC : Reg) : RowOfEncoding.Statement (.slt rA rB rC) :=
  rowOf_function rfl rfl (rowOf_encodeRRR (by decide) rA rB rC)

theorem RowOfEncoding.jr (rA : Reg) (ign : BitVec 6) : RowOfEncoding.Statement (.jr rA ign) :=
  rowOf_function rfl rfl (rowOf_encodeJr rA ign)

theorem RowOfEncoding.reservedFn5 (ign : BitVec 9) : RowOfEncoding.Statement (.reservedFn5 ign) :=
  rowOf_function rfl rfl (rowOf_encodeReserved (by decide) ign)

theorem RowOfEncoding.reservedFn6 (ign : BitVec 9) : RowOfEncoding.Statement (.reservedFn6 ign) :=
  rowOf_function rfl rfl (rowOf_encodeReserved (by decide) ign)

theorem RowOfEncoding.reservedFn7 (ign : BitVec 9) : RowOfEncoding.Statement (.reservedFn7 ign) :=
  rowOf_function rfl rfl (rowOf_encodeReserved (by decide) ign)

theorem RowOfEncoding.reservedFn9 (ign : BitVec 9) : RowOfEncoding.Statement (.reservedFn9 ign) :=
  rowOf_function rfl rfl (rowOf_encodeReserved (by decide) ign)

theorem RowOfEncoding.reservedFn10 (ign : BitVec 9) : RowOfEncoding.Statement (.reservedFn10 ign) :=
  rowOf_function rfl rfl (rowOf_encodeReserved (by decide) ign)

theorem RowOfEncoding.reservedFn11 (ign : BitVec 9) : RowOfEncoding.Statement (.reservedFn11 ign) :=
  rowOf_function rfl rfl (rowOf_encodeReserved (by decide) ign)

theorem RowOfEncoding.reservedFn12 (ign : BitVec 9) : RowOfEncoding.Statement (.reservedFn12 ign) :=
  rowOf_function rfl rfl (rowOf_encodeReserved (by decide) ign)

theorem RowOfEncoding.reservedFn13 (ign : BitVec 9) : RowOfEncoding.Statement (.reservedFn13 ign) :=
  rowOf_function rfl rfl (rowOf_encodeReserved (by decide) ign)

theorem RowOfEncoding.reservedFn14 (ign : BitVec 9) : RowOfEncoding.Statement (.reservedFn14 ign) :=
  rowOf_function rfl rfl (rowOf_encodeReserved (by decide) ign)

theorem RowOfEncoding.reservedFn15 (ign : BitVec 9) : RowOfEncoding.Statement (.reservedFn15 ign) :=
  rowOf_function rfl rfl (rowOf_encodeReserved (by decide) ign)

theorem RowOfEncoding.addi (rA rB : Reg) (imm7 : BitVec 7) : RowOfEncoding.Statement (.addi rA rB imm7) :=
  rowOf_opcode rfl (rowOf_encodeRRI (by decide) rA rB imm7)

theorem RowOfEncoding.lw (rA rB : Reg) (imm7 : BitVec 7) : RowOfEncoding.Statement (.lw rA rB imm7) :=
  rowOf_opcode rfl (rowOf_encodeRRI (by decide) rA rB imm7)

theorem RowOfEncoding.sw (rA rB : Reg) (imm7 : BitVec 7) : RowOfEncoding.Statement (.sw rA rB imm7) :=
  rowOf_opcode rfl (rowOf_encodeRRI (by decide) rA rB imm7)

theorem RowOfEncoding.jeq (rA rB : Reg) (imm7 : BitVec 7) : RowOfEncoding.Statement (.jeq rA rB imm7) :=
  rowOf_opcode rfl (rowOf_encodeRRI (by decide) rA rB imm7)

theorem RowOfEncoding.slti (rA rB : Reg) (imm7 : BitVec 7) : RowOfEncoding.Statement (.slti rA rB imm7) :=
  rowOf_opcode rfl (rowOf_encodeRRI (by decide) rA rB imm7)

theorem RowOfEncoding.j (imm13 : BitVec 13) : RowOfEncoding.Statement (.j imm13) :=
  rowOf_opcode rfl (rowOf_encodeJ (by decide) imm13)

theorem RowOfEncoding.jal (imm13 : BitVec 13) : RowOfEncoding.Statement (.jal imm13) :=
  rowOf_opcode rfl (rowOf_encodeJ (by decide) imm13)

end Sys2Proof.Laws
end

