-- ==== Sys2Proof/Tests/Slice0.lean ====
section
/-! SUPPORT. The model's own tests. Every expected value is the spec's: the vectors V<n> and the examples of
95_test_vectors.md, example A of 44_cache.md, or a word written out from the encoding of 30_encoding.md. At the end,
for every statement that has hypotheses, a witness that meets them. -/

namespace Sys2Proof.Tests

open Sys2Proof.Machine

/-! ### What is ill-formed is refused (44_cache.md R142, 45_host_interface.md R171) -/

theorem test_size_zero_is_ill_formed : Geometry.wellFormed ⟨0, 1, 1⟩ = false := by decide
theorem test_assoc_zero_is_ill_formed : Geometry.wellFormed ⟨1, 0, 1⟩ = false := by decide
theorem test_blockSize_zero_is_ill_formed : Geometry.wellFormed ⟨1, 1, 0⟩ = false := by decide
theorem test_no_row_is_ill_formed : Geometry.wellFormed ⟨4, 2, 4⟩ = false := by decide
theorem test_least_geometry_is_well_formed : Geometry.wellFormed ⟨1, 1, 1⟩ = true := by decide
theorem test_level_one_ill_formed : CacheSpec.wellFormed (.two ⟨4, 2, 4⟩ ⟨8, 2, 2⟩) = false := by decide
theorem test_level_two_ill_formed : CacheSpec.wellFormed (.two ⟨8, 2, 2⟩ ⟨4, 2, 4⟩) = false := by decide

/-- A line whose sixteen digits are 0. -/
def blankLine (addr : Nat) : ImageLine := ⟨addr, List.replicate 16 false⟩

theorem test_line_address_too_high : (blankLine 8192).wellFormed = false := by decide
theorem test_line_with_fifteen_digits : ImageLine.wellFormed ⟨0, List.replicate 15 false⟩ = false := by decide
/-- S8: the addresses 0, 1, 3. -/
theorem test_image_with_gap : imageWellFormed [blankLine 0, blankLine 1, blankLine 3] = false := by decide
theorem test_image_from_one : imageWellFormed [blankLine 1] = false := by decide
theorem test_image_in_sequence : imageWellFormed [blankLine 0, blankLine 1] = true := by decide
theorem test_file_with_gap_is_refused :
    bootFile .off [blankLine 0, blankLine 1, blankLine 3] = .refused .badImage := rfl
/-- R172: four integers are neither three nor six. -/
theorem test_cache_option_of_four : cacheSpecOf (some [8, 2, 2, 8]) = none := by decide
theorem test_negative_size_is_refused : configureOption (some [-8, 2, 2]) State.reset = .refused .illegalCacheConfig := rfl

/-- R171, the spec's own line. -/
theorem test_parse_line :
    (parseLine "ram[1] = 16'b0100000000000001;".toList).map (fun l => (l.addr, wordOfDigits l.digits)) =
      some (1, 0x4001) := by decide
theorem test_parse_line_without_semicolon : parseLine "ram[1] = 16'b0100000000000001".toList = none := by decide
theorem test_parse_line_without_address : parseLine "ram[] = 16'b0100000000000001;".toList = none := by decide

/-! ### Decoding: words of 95_test_vectors.md sections 2 to 5, and of R51 and R56 for the other reserved functions -/

theorem test_decode_add : decode 0b0000100110010000 = .add 2 3 1 := by decide
theorem test_decode_sub : decode 0b0000100110010001 = .sub 2 3 1 := by decide
theorem test_decode_or : decode 0b0000100110010010 = .or 2 3 1 := by decide
theorem test_decode_and : decode 0b0000100110010011 = .and 2 3 1 := by decide
theorem test_decode_slt : decode 0b0001001000110100 = .slt 4 4 3 := by decide
theorem test_decode_jr : decode 0b0000111111111000 = .jr 3 0b111111 := by decide
theorem test_decode_reservedFn5 : decode 0b0000010100110101 = .reservedFn5 0b001010011 := by decide
theorem test_decode_reservedFn6 : decode 0b0000010100110110 = .reservedFn6 0b001010011 := by decide
theorem test_decode_reservedFn7 : decode 0b0000010100110111 = .reservedFn7 0b001010011 := by decide
theorem test_decode_reservedFn9 : decode 0b0001111111111001 = .reservedFn9 0b111111111 := by decide
theorem test_decode_reservedFn10 : decode 0b0001000000001010 = .reservedFn10 0b100000000 := by decide
theorem test_decode_reservedFn11 : decode 0b0000000000011011 = .reservedFn11 0b000000001 := by decide
theorem test_decode_reservedFn12 : decode 0b0000010100111100 = .reservedFn12 0b001010011 := by decide
theorem test_decode_reservedFn13 : decode 0b0000010100111101 = .reservedFn13 0b001010011 := by decide
theorem test_decode_reservedFn14 : decode 0b0000010100111110 = .reservedFn14 0b001010011 := by decide
theorem test_decode_reservedFn15 : decode 0b0000000000001111 = .reservedFn15 0 := by decide
theorem test_decode_addi : decode 0b0010000011000001 = .addi 0 1 0x41 := by decide
theorem test_decode_j : decode 0b0101000000000000 = .j 0x1000 := by decide
theorem test_decode_jal : decode 0b0111111111111111 = .jal 0x1FFF := by decide
theorem test_decode_lw : decode 0b1000010100000011 = .lw 1 2 3 := by decide
theorem test_decode_sw : decode 0b1010101111001101 = .sw 2 7 0x4D := by decide
theorem test_decode_jeq : decode 0b1100010100000100 = .jeq 1 2 4 := by decide
theorem test_decode_slti : decode 0b1111111111111111 = .slti 7 7 0x7F := by decide
/-- R53: the seven fields and two immediates of the word 0xABCD, by the table of section 2. -/
theorem test_fields : fieldsOf 0xABCD = ⟨5, 2, 7, 4, 13, 0x4D, 0x0BCD, 0xFFCD, 0x0BCD⟩ := by decide
theorem test_encode_sw : encode (.sw 2 7 0x4D) = 0xABCD := by decide
theorem test_encode_jr : encode (.jr 3 0b111111) = 0x0FF8 := by decide
theorem test_table_word : decodeTableWord 16 0x2085 = some (.addi 0 1 5) := by decide
/-- The digits of `ram[0] = 16'b0010000010000101` (program P1) spell 0x2085. -/
theorem test_digits : wordOfDigits [false, false, true, false, false, false, false, false,
    true, false, false, false, false, true, false, true] = 0x2085 := by decide

/-! ### One step -/

/-- A machine in phase RUN at `pc`, with the word `w` in the cell it fetches from, and some registers and cells set. -/
def testState (pc w : Word) (regs : List (Reg × Word)) (cells : List (Nat × Word)) (cs : Caches := .off) : State :=
  let s0 : State := { State.reset with pc := pc, started := true, caches := cs }
  let s1 := regs.foldl (fun s p => s.writeReg p.1 p.2) s0
  (cells.foldl (fun s p => s.store p.1 p.2) s1).store pc.toNat w

/-- The next state, where there is one. -/
def nextOf (r : Result) : Option State :=
  match r with
  | .next t => some t
  | .fault _ => none
  | .refused _ => none

/-- One register, the pc and the halt signal after one step. -/
def afterStep (s : State) (r : Reg) : Option (Word × Word × Bool) :=
  (nextOf (step s)).map (fun t => (t.readReg r, t.pc, t.halted))

/-- V1. -/
theorem test_add_wraps :
    afterStep (testState 0x0010 0x0990 [(2, 0xFFFF), (3, 2)] []) 1 = some (0x0001, 0x0011, false) := by decide
/-- V3. -/
theorem test_add_source_is_destination :
    afterStep (testState 0 0x0490 [(1, 0x8001)] []) 1 = some (0x0002, 0x0001, false) := by decide
/-- V7. -/
theorem test_sub_borrows :
    afterStep (testState 0 0x0991 [(2, 0), (3, 1)] []) 1 = some (0xFFFF, 0x0001, false) := by decide
/-- V8. -/
theorem test_sub_operand_order :
    afterStep (testState 0 0x0991 [(2, 0x8000), (3, 1)] []) 1 = some (0x7FFF, 0x0001, false) := by decide
/-- V11. -/
theorem test_or :
    afterStep (testState 0 0x0992 [(2, 0x0F0F), (3, 0x00FF)] []) 1 = some (0x0FFF, 0x0001, false) := by decide
/-- V13. -/
theorem test_and :
    afterStep (testState 0 0x0993 [(2, 0x0F0F), (3, 0x00FF)] []) 1 = some (0x000F, 0x0001, false) := by decide
/-- V15. -/
theorem test_slt_is_unsigned :
    afterStep (testState 0 0x0994 [(2, 0x0001), (3, 0xFFFF)] []) 1 = some (0x0001, 0x0001, false) := by decide
/-- V17. -/
theorem test_slt_equal_writes_zero :
    afterStep (testState 0 0x0994 [(1, 9), (2, 7), (3, 7)] []) 1 = some (0x0000, 0x0001, false) := by decide
/-- V23. -/
theorem test_addi_wraps :
    afterStep (testState 0 0x28BF [(2, 0xFFFF)] []) 1 = some (0x003E, 0x0001, false) := by decide
/-- V24. -/
theorem test_addi_to_register_zero :
    afterStep (testState 0 0x2407 [(1, 1)] []) 0 = some (0x0000, 0x0001, false) := by decide
/-- V25. -/
theorem test_slti_is_unsigned :
    afterStep (testState 0 0xE57F [(1, 5)] []) 2 = some (0x0001, 0x0001, false) := by decide
/-- V29. -/
theorem test_slti_high_bit_is_large :
    afterStep (testState 0 0xE50A [(1, 0x8000), (2, 9)] []) 2 = some (0x0000, 0x0001, false) := by decide

/-- V31. -/
theorem test_reservedFn5 :
    afterStep (testState 4 0x0535 [(1, 1), (2, 2), (3, 3)] []) 3 = some (3, 5, false) := by decide
/-- R98, with the operand bits of V31, as are the six below. -/
theorem test_reservedFn6 :
    afterStep (testState 4 0x0536 [(1, 1), (2, 2), (3, 3)] []) 3 = some (3, 5, false) := by decide
theorem test_reservedFn7 :
    afterStep (testState 4 0x0537 [(1, 1), (2, 2), (3, 3)] []) 3 = some (3, 5, false) := by decide
/-- V33. -/
theorem test_reservedFn9_is_no_jr :
    afterStep (testState 7 0x1FF9 [(7, 7)] []) 7 = some (7, 8, false) := by decide
theorem test_reservedFn10 :
    afterStep (testState 4 0x053A [(1, 1), (2, 2), (3, 3)] []) 3 = some (3, 5, false) := by decide
theorem test_reservedFn11 :
    afterStep (testState 4 0x053B [(1, 1), (2, 2), (3, 3)] []) 3 = some (3, 5, false) := by decide
theorem test_reservedFn12 :
    afterStep (testState 4 0x053C [(1, 1), (2, 2), (3, 3)] []) 3 = some (3, 5, false) := by decide
theorem test_reservedFn13 :
    afterStep (testState 4 0x053D [(1, 1), (2, 2), (3, 3)] []) 3 = some (3, 5, false) := by decide
theorem test_reservedFn14 :
    afterStep (testState 4 0x053E [(1, 1), (2, 2), (3, 3)] []) 3 = some (3, 5, false) := by decide
/-- V32: the pc is not reduced. -/
theorem test_reservedFn15_past_the_last_cell :
    afterStep (testState 0x1FFF 0x000F [] []) 0 = some (0, 0x2000, false) := by decide

/-- V42. -/
theorem test_jr_to_alias_goes_on :
    afterStep (testState 5 0x0C08 [(3, 0x2005)] []) 3 = some (0x2005, 0x2005, false) := by decide
/-- V43. -/
theorem test_jr_to_raw_pc_halts :
    afterStep (testState 0x2005 0x0C08 [(3, 0x2005)] []) 3 = some (0x2005, 0x2005, true) := by decide
/-- V51. -/
theorem test_j_compares_reduced_pc : afterStep (testState 0x2003 0x4003 [] []) 7 = some (0, 0x2003, true) := by decide
/-- V53. -/
theorem test_j_sign_extends : afterStep (testState 0x1000 0x5000 [] []) 7 = some (0, 0xF000, false) := by decide
/-- V57. -/
theorem test_jal_links_when_it_halts : afterStep (testState 5 0x6005 [] []) 7 = some (6, 5, true) := by decide
/-- V58. -/
theorem test_jal_compares_raw_pc :
    afterStep (testState 0x2003 0x6003 [] []) 7 = some (0x2004, 0x0003, false) := by decide
/-- V62. -/
theorem test_jeq_taken :
    afterStep (testState 0x0010 0xC504 [(1, 7), (2, 7)] []) 1 = some (7, 0x0015, false) := by decide
/-- V63. -/
theorem test_jeq_not_taken :
    afterStep (testState 0x0010 0xC504 [(1, 7), (2, 8)] []) 1 = some (7, 0x0011, false) := by decide

/-! ### Load and store, with the level (8, 2, 2) of section 5 -/

/-- The level (8, 2, 2), empty. -/
def level822 : Caches := emptyCaches (.one ⟨8, 2, 2⟩)

/-- The register, the cell, the pc and the trace after one step. -/
def afterAccess (s : State) (r : Reg) (a : Nat) : Option (Word × Word × Word × List TraceRecord) :=
  (nextOf (step s)).map (fun t => (t.readReg r, t.mem.read a, t.pc, t.trace))

/-- V72: the base is the destination, and bits 15:13 of the address are dropped. -/
theorem test_lw_base_is_destination :
    afterAccess (testState 4 0x8480 [(1, 0x8005)] [(5, 0x0042)] level822) 1 5 =
      some (0x0042, 0x0042, 5, [⟨.L1, .MISS, 4, 5, 0⟩]) := by decide
/-- V71: the destination is register 0; the event is still emitted. -/
theorem test_lw_to_register_zero :
    afterAccess (testState 4 0x8403 [(1, 0x0010)] [(19, 0xBEEF)] level822) 0 19 =
      some (0, 0xBEEF, 5, [⟨.L1, .MISS, 4, 19, 1⟩]) := by decide
/-- V76. -/
theorem test_sw_wraps_below_zero :
    afterAccess (testState 9 0xA57F [(1, 0), (2, 0x1234)] [] level822) 2 8191 =
      some (0x1234, 0x1234, 0x000A, [⟨.L1, .SW, 9, 8191, 1⟩]) := by decide
/-- V79: the store overwrites its own cell. -/
theorem test_sw_over_itself :
    afterAccess (testState 1 0xA502 [(1, 0xFFFF), (2, 0xAAAA)] [] level822) 2 1 =
      some (0xAAAA, 0xAAAA, 2, [⟨.L1, .SW, 1, 1, 0⟩]) := by decide

/-- 44_cache.md example A, event 5: tag 1, the back of the full set, is evicted. -/
theorem test_access_evicts_the_back :
    (CacheLevel.access ⟨⟨8, 2, 2⟩, [[0, 1], []]⟩ 8) = ⟨false, 0, ⟨⟨8, 2, 2⟩, [[2, 0], []]⟩⟩ := by decide
/-- 44_cache.md example A, event 4: tag 0 moves to the front. -/
theorem test_access_refreshes :
    (CacheLevel.access ⟨⟨8, 2, 2⟩, [[1, 0], []]⟩ 0) = ⟨true, 0, ⟨⟨8, 2, 2⟩, [[0, 1], []]⟩⟩ := by decide
/-- S7, event 6: a store absent in both levels is installed in both and labelled SW in both. -/
theorem test_store_reaches_level_two :
    Caches.handle (.two ⟨⟨2, 1, 1⟩, [[0], []]⟩ ⟨⟨8, 2, 2⟩, [[0], [0]]⟩) ⟨true, 5, 0⟩ =
      (.two ⟨⟨2, 1, 1⟩, [[0], [2]]⟩ ⟨⟨8, 2, 2⟩, [[1, 0], [0]]⟩, [⟨.L1, .SW, 0, 5, 1⟩, ⟨.L2, .SW, 0, 5, 0⟩]) := by decide
/-- S7, event 2: a load that hits in level 1 is not seen by level 2. -/
theorem test_load_hit_stays_in_level_one :
    Caches.handle (.two ⟨⟨2, 1, 1⟩, [[0], []]⟩ ⟨⟨8, 2, 2⟩, [[0], []]⟩) ⟨false, 0, 0⟩ =
      (.two ⟨⟨2, 1, 1⟩, [[0], []]⟩ ⟨⟨8, 2, 2⟩, [[0], []]⟩, [⟨.L1, .HIT, 0, 0, 0⟩]) := by decide
/-- Section 6: 7 div 2 = 3, 3 div 2 = 1. -/
theorem test_rowCount_divides_left_to_right : rowCount ⟨7, 2, 2⟩ = 1 := by decide
/-- Section 6: address 8191 under (64, 2, 8). -/
theorem test_row_and_tag : (rowOf ⟨64, 2, 8⟩ 8191, tagOf ⟨64, 2, 8⟩ 8191) = (3, 255) := by decide
/-- The first line of program P2's trace, as 95_test_vectors.md prints it. -/
theorem test_trace_line :
    traceLine ⟨.L1, .MISS, 3, 16, 0⟩ = "L1 MISS  pc:    3\taddr:   16\trow:   0".toList := by decide
/-- R175: four lowercase digits. -/
theorem test_hex_word : hexWord 0xBEEF = ['b', 'e', 'e', 'f'] := by decide

/-! ### Reset, boot and the ends of a run -/

theorem test_first_instruction_after_reset :
    (nextOf (step (State.reset.withFetchWord 16 0x2085))).map (fun t => (t.readReg 1, t.pc)) = some (5, 1) := by decide
theorem test_reset_is_in_load : step State.reset = .fault .notStarted := rfl
/-- S4, by the host's transactions: the image 0x4000 halts in one step at pc 0. -/
theorem test_self_jump_program :
    (nextOf (andThen (boot .off [0x4000]) step)).map (fun t => (t.pc, t.halted, t.mem.read 0)) =
      some (0, true, 0x4000) := by decide
/-- R177: once, in LOAD. -/
theorem test_second_configure_is_refused :
    andThen (configure .off State.reset) (configure (.one ⟨8, 2, 2⟩)) = .refused .configuredAlready := rfl
theorem test_load_word_is_refused_in_run : loadWord 0 1 (testState 0 0 [] []) = .refused .outsideLoad := rfl
/-- 45_host_interface.md R175: no dump before the halt. -/
theorem test_no_dump_before_halt : State.reset.finalDump = none := by decide
/-- R175: the form of a register and of a line of memory. -/
theorem test_dump_lines :
    registerLine 7 0x0003 = ['$', '7', '=', '3'] ∧ hexLine [0x00FF, 0xBEEF] = "00ff beef".toList := by decide

/-! ### Witnesses: for every statement that has hypotheses, inputs that meet them

A step of a concrete instruction in a concrete state is shown by `rfl`. -/

/-- A started machine with a legal level, at `pc`, on the word `w`. -/
def running (pc w : Word) : State := testState pc w [] [] level822

theorem running_inv : (running 0 0x4000).Inv := ⟨by decide, by decide, by decide, by decide, by decide⟩

theorem witness_ReservedWordsOnlyAdvance :
    ∀ i ∈ [Instr.reservedFn5 0x1FF, .reservedFn15 0x1FF], i ∈ [Instr.reservedFn5 0x1FF, .reservedFn6 0x1FF,
      .reservedFn7 0x1FF, .reservedFn9 0x1FF, .reservedFn10 0x1FF, .reservedFn11 0x1FF, .reservedFn12 0x1FF,
      .reservedFn13 0x1FF, .reservedFn14 0x1FF, .reservedFn15 0x1FF] := by decide

/-- Both sides: a `j` that halts and an `add`, which does not. -/
theorem witness_HaltsExactlyOnSelfJump :
    ((running 0 0).halted = false ∧ ∃ t, exec (.j 0) (running 0 0) = .next t ∧ t.halted = true) ∧
    (∃ t, exec (.add 0 0 0) (running 0 0) = .next t ∧ t.halted = false) :=
  ⟨⟨by decide, _, rfl, by decide⟩, _, rfl, by decide⟩

theorem witness_JWithBit12SetNeverHalts :
    4096 ≤ (0x1000 : BitVec 13).toNat ∧ 4096 ≤ (0x1FFF : BitVec 13).toNat := by decide

/-- V58, and the largest immediate with bit 12 clear. -/
theorem witness_JalAliasHaltsOnSecondStep :
    ((running 0x2003 0x6003).started = true ∧ (running 0x2003 0x6003).halted = false ∧
      (running 0x2003 0x6003).configLegal = true ∧ (3 : BitVec 13).toNat < 4096 ∧
      (running 0x2003 0x6003).fetch = encode (.jal 3) ∧
      (running 0x2003 0x6003).pc.toNat = (3 : BitVec 13).toNat + 0x2000) ∧
    ((0xFFF : BitVec 13).toNat < 4096 ∧ (running 0x2FFF 0x6FFF).fetch = encode (.jal 0xFFF) ∧
      (running 0x2FFF 0x6FFF).pc.toNat = (0xFFF : BitVec 13).toNat + 0x2000) := by decide

theorem witness_JeqToItselfRunsForever :
    (running 3 0xC07F).started = true ∧ (running 3 0xC07F).halted = false ∧
      (running 3 0xC07F).configLegal = true ∧ (running 3 0xC07F).regs[0] = 0 ∧
      (running 3 0xC07F).fetch = encode (.jeq 0 0 0x7F) := by decide

/-- The fetch of the stored cell, under an alias of its address, and of another cell. -/
theorem witness_FetchSeesEarlierStore :
    (∃ t, exec (.sw 0 0 0x7F) (running 0 0) = .next t) ∧
    (0xFFFF : Word).toNat % 8192 = effAddr (running 0 0) 0 0x7F ∧
    ¬ (0x1FFE : Word).toNat % 8192 = effAddr (running 0 0) 0 0x7F := ⟨⟨_, rfl⟩, by decide, by decide⟩

/-- Two states that agree in the register `slti` reads and differ in the others. -/
theorem witness_InstructionsReadAndWriteTheirRegisters :
    let s := testState 0 0 [(1, 5)] []
    let s' := testState 0 0 [(1, 5), (2, 9), (3, 8)] []
    (∃ t, exec (.slti 1 2 0) s = .next t) ∧ s'.pc = s.pc ∧ s'.halted = s.halted ∧ s'.mem = s.mem ∧
      s'.caches = s.caches ∧ s'.started = s.started ∧ s'.configured = s.configured ∧
      s'.trace = s.trace ∧
      (∀ q ∈ readsOf (.slti 1 2 0), s'.readReg q = s.readReg q) ∧ s'.regs ≠ s.regs :=
  ⟨⟨_, rfl⟩, rfl, rfl, rfl, rfl, rfl, rfl, rfl, by decide, by decide⟩

theorem witness_RegisterZeroIsZeroAfterEveryStep : ∃ t, exec (.addi 0 0 9) (running 0 0) = .next t := ⟨_, rfl⟩

theorem witness_OnlyStoreChangesMemory :
    isStore (.lw 1 1 0) = false ∧ ∃ t, exec (.lw 1 1 0) (running 0 0) = .next t := ⟨rfl, _, rfl⟩

theorem witness_OnlyLoadAndStoreReachCache :
    isLoad (.jal 0) = false ∧ isStore (.jal 0) = false ∧ ∃ t, exec (.jal 0) (running 0 0) = .next t :=
  ⟨rfl, rfl, _, rfl⟩

/-- With the pc at 0 and, one step before it wraps, at 0xFFFF. -/
theorem witness_StepRunsDecodedInstruction :
    ((running 0 0).started = true ∧ (running 0 0).halted = false ∧ (running 0 0).configLegal = true) ∧
    ((running 0xFFFF 0x5FFF).started = true ∧ (running 0xFFFF 0x5FFF).halted = false ∧
      (running 0xFFFF 0x5FFF).configLegal = true ∧ decode (running 0xFFFF 0x5FFF).fetch = .j 0x1FFF) := by decide

/-- Both clauses: LOAD and HALTED. -/
theorem witness_NoStepOutsidePhaseRun :
    State.reset.started = false ∧ (running 0 0).raiseHalt.started = true ∧ (running 0 0).raiseHalt.halted = true := by
  decide

theorem witness_RunNeverFails : (running 0 0x4000).Inv ∧ (running 0 0x4000).started = true := ⟨running_inv, by decide⟩

/-- Without a cache and with one, and both ends of a run: it goes on, and it has halted. -/
theorem witness_CacheIsInvisibleToPrograms :
    SameProgramState (testState 0 0x4000 [] []) (running 0 0x4000) ∧ (testState 0 0x4000 [] []).configLegal = true ∧
      (running 0 0x4000).configLegal = true ∧ (testState 0 0x4000 [] []).caches ≠ (running 0 0x4000).caches ∧
      (∃ t, core.run 1 (testState 0 0x4000 [] []) = .next t) ∧
      core.run 2 (testState 0 0x4000 [] []) = .fault .halted :=
  ⟨⟨rfl, rfl, rfl, rfl, rfl⟩, by decide, by decide, by decide, ⟨_, rfl⟩, rfl⟩

theorem witness_InvKeptByEveryStep : (running 0 0x4000).Inv ∧ ∃ t, step (running 0 0x4000) = .next t :=
  ⟨running_inv, _, rfl⟩

theorem reset_inv : State.reset.Inv := ⟨by decide, by decide, by decide, by decide, by decide⟩

/-- Each of the transactions, on the state after reset. -/
theorem witness_InvKeptByHostTransactions :
    State.reset.Inv ∧ (∃ t, configure (.one ⟨8, 2, 2⟩) State.reset = .next t) ∧
      (∃ t, loadWord 0x1FFF 1 State.reset = .next t) ∧ ∃ t, start State.reset = .next t :=
  ⟨reset_inv, ⟨_, rfl⟩, ⟨_, rfl⟩, _, rfl⟩

/-- A row with a function and a row without. -/
theorem witness_OpcodeMapSelectsOneRow :
    (0x1FF9 : Word) &&& rowMask (.reservedFn9 0) = rowMatch (.reservedFn9 0) ∧
    (0xFFFF : Word) &&& rowMask (.slti 0 0 0) = rowMatch (.slti 0 0 0) := by decide

/-- The first clause on a memory with the last cell listed, the second on one memory written twice in two orders. -/
theorem witness_CanonicalMemoriesAreEqualWhenTheyReadAlike :
    Memory.wf ⟨[(0, 1), (8191, 2)]⟩ = true ∧ (Memory.write ⟨[(0, 1), (8191, 2)]⟩ 8191 0).wf = true ∧
    ((Memory.write ⟨[]⟩ 1 7).write 2 8).wf = true ∧ ((Memory.write ⟨[]⟩ 2 8).write 1 7).wf = true ∧
    (∀ a, ((Memory.write ⟨[]⟩ 1 7).write 2 8).read a = ((Memory.write ⟨[]⟩ 2 8).write 1 7).read a) :=
  ⟨by decide, by decide, by decide, by decide, fun _ => rfl⟩

/-- The three cases of an access: a hit, a miss in a full set, a miss in a set with room. -/
theorem witness_AccessMovesOrInsertsTag :
    let c : CacheLevel := ⟨⟨8, 2, 2⟩, [[0, 1], [0]]⟩
    c.wf = true ∧ c.geom.wellFormed = true ∧
      tagOf c.geom 4 ∈ c.set (rowOf c.geom 4) ∧
      (tagOf c.geom 8 ∉ c.set (rowOf c.geom 8) ∧ (c.set (rowOf c.geom 8)).length = c.geom.assoc) ∧
      (tagOf c.geom 8191 ∉ c.set (rowOf c.geom 8191) ∧ (c.set (rowOf c.geom 8191)).length < c.geom.assoc) := by decide

/-- The first and the last row of a level, and the level with a single row. -/
theorem witness_SetsHoldTheLatestTags :
    Geometry.wellFormed ⟨8, 2, 2⟩ = true ∧ 0 < rowCount ⟨8, 2, 2⟩ ∧ 1 < rowCount ⟨8, 2, 2⟩ ∧
    Geometry.wellFormed ⟨1, 1, 1⟩ = true ∧ 0 < rowCount ⟨1, 1, 1⟩ := by decide

/-- Example A of 44_cache.md, all seven reads, the latest first: row 0 holds the tags 1 and 2. -/
theorem test_latest_tags :
    ((emptyLevel ⟨8, 2, 2⟩).after [3, 4, 8, 0, 4, 1, 0]).sets = [[1, 2], [0]] ∧
    (latestFirst (rowTags ⟨8, 2, 2⟩ 0 [3, 4, 8, 0, 4, 1, 0])).take 2 = [1, 2] := by decide

theorem witness_RowAndTagDetermineBlock :
    Geometry.wellFormed ⟨64, 2, 8⟩ = true ∧ Geometry.wellFormed ⟨1, 1, 1⟩ = true := by decide

/-- A read event that hits in level 1 and one that misses. -/
theorem witness_ReadEventLooksUpLevelTwoOnlyOnMiss :
    (AddressEvent.mk false 0 0).isWrite = false ∧ (CacheLevel.access ⟨⟨1, 1, 1⟩, [[0]]⟩ 0).hit = true ∧
    (AddressEvent.mk false 8191 0).isWrite = false ∧ (CacheLevel.access ⟨⟨1, 1, 1⟩, [[0]]⟩ 8191).hit = false := by decide

theorem witness_WriteEventAccessesEveryLevel : (AddressEvent.mk true 8191 0).isWrite = true := by decide

/-- One step for each of the three clauses. -/
theorem witness_RecordsOfAStepHaveTheTableShape :
    (isLoad (.j 0) = false ∧ isStore (.j 0) = false ∧ ∃ t, exec (.j 0) (running 0 0) = .next t) ∧
    (∃ t, exec (.lw 0 0 0) (running 0 0) = .next t) ∧ ∃ t, exec (.sw 0 0 0) (running 0 0) = .next t :=
  ⟨⟨rfl, rfl, _, rfl⟩, ⟨_, rfl⟩, _, rfl⟩

/-- Every number of levels. -/
theorem witness_ResetValues :
    CacheSpec.wellFormed .off = true ∧ CacheSpec.wellFormed (.one ⟨1, 1, 1⟩) = true ∧
    CacheSpec.wellFormed (.two ⟨2, 1, 1⟩ ⟨8, 2, 2⟩) = true := by decide

/-- A legal and an illegal configuration, before the one `configure` and after it, in phase LOAD. -/
theorem witness_ConfigureRefusesExactlyIllegalGeometry :
    State.reset.started = false ∧ State.reset.configured = false ∧ CacheSpec.wellFormed (.one ⟨8, 2, 2⟩) = true ∧
    CacheSpec.wellFormed (.one ⟨4, 2, 4⟩) = false ∧
    (State.reset.setCaches .off).started = false ∧ (State.reset.setCaches .off).configured = true := by decide

theorem witness_StepRefusedUnderIllegalGeometry :
    let s := testState 0 0 [] [] (.one ⟨⟨4, 2, 4⟩, []⟩)
    s.started = true ∧ s.halted = false ∧ s.caches.spec.wellFormed = false := by decide

/-- No image, an image of one word, and the longest image; the first and the last cell. -/
theorem witness_BootPlacesImageFromCellZero :
    CacheSpec.wellFormed (.one ⟨8, 2, 2⟩) = true ∧ ([] : List Word).length ≤ 8192 ∧ [(0x4000 : Word)].length ≤ 8192 ∧
      (List.replicate 8192 (0x4000 : Word)).length ≤ 8192 ∧ 0 < 8192 ∧ 8191 < 8192 :=
  ⟨by decide, by decide, by decide, Nat.le_of_eq List.length_replicate, by decide, by decide⟩

/-- Lines that are legal and lines that are not; the first and the last index. -/
theorem witness_LegalImageFilesAreInSequence :
    imageWellFormed [blankLine 0, blankLine 1] = true ∧ imageWellFormed [blankLine 0, blankLine 2] = false ∧
      0 < [blankLine 0, blankLine 1].length ∧ 1 < [blankLine 0, blankLine 1].length := by decide

/-- The first and the last digit. -/
theorem witness_FirstDigitIsBitFifteen :
    (List.replicate 16 true).length = 16 ∧ 0 < (List.replicate 16 true).length ∧
      15 < (List.replicate 16 true).length := by decide

/-- Both clauses, and the ends of the ranges. -/
theorem witness_FinalDumpShowsHaltedState :
    State.reset.halted = false ∧ (running 0 0).raiseHalt.halted = true ∧ 0 < 128 ∧ 127 < 128 ∧ 0 < 16 ∧ 15 < 16 := by
  decide

/-- The first and the last cell. -/
theorem witness_ObserveShowsWholeState : 0 < 8192 ∧ 8191 < 8192 := by decide

end Sys2Proof.Tests
end

section
/-! The memory obligations: what a read gives after a write (R30, R31). -/

namespace Sys2Proof.Machine

theorem Memory.read_write_same (m : Memory) {a b : Nat} (v : Word) (h : cellIndex b = cellIndex a) :
    (m.write a v).read b = v := by
  by_cases hv : v = Config.blankCell
  · simp [Memory.read, Memory.write, h, hv, lookupCell_filter_self]
  · simp [Memory.read, Memory.write, h, hv, lookupCell_insertCell]

theorem Memory.read_write_other (m : Memory) {a b : Nat} (v : Word) (h : cellIndex b ≠ cellIndex a) :
    (m.write a v).read b = m.read b := by
  by_cases hv : v = Config.blankCell
  · simp [Memory.read, Memory.write, hv, lookupCell_filter_other h]
  · simp [Memory.read, Memory.write, hv, lookupCell_insertCell, lookupCell_filter_other h, h.symm]

/-- The one rule of reading after a write: addresses are compared as the cells they name. -/
theorem Memory.read_write (m : Memory) (a b : Nat) (v : Word) :
    (m.write a v).read b = if cellIndex b = cellIndex a then v else m.read b := by
  split
  · next h => exact m.read_write_same v h
  · next h => exact m.read_write_other v h

/-- Settles O38: `Memory.read_mod` for the reduction, and `Memory.read_write`, whose `cellIndex` is the remainder by
8192. Neither part needs the canonical form, so the memory is any list of cells. -/
theorem readGivesLastWrite : Obligations.ReadGivesLastWrite :=
  fun m a b v => ⟨m.read_mod a, m.read_write a b v⟩

end Sys2Proof.Machine
end

section
/-! The execution engine (40_execution_engine.md): one successor and one list of records per instruction (R81), and what
a step in phase RUN executes (R72). -/

namespace Sys2Proof.Machine

/-- The records an instruction adds to the trace: those that the Cache Simulator answers the address event of a load or
a store with, and none for any other instruction (R132, R153). -/
def recordsOf (i : Instr) (s : State) : List TraceRecord :=
  match i with
  | .lw rA _ imm7 => (s.caches.handle ⟨false, effAddr s rA imm7, s.pc⟩).2
  | .sw rA _ imm7 => (s.caches.handle ⟨true, effAddr s rA imm7, s.pc⟩).2
  | _ => []

/-- The result is a next state whose trace is that of `s` followed by `records`. -/
def AnswersWithRecords (r : Result) (s : State) (records : List TraceRecord) : Prop :=
  ∃ t, r = .next t ∧ t.trace = s.trace ++ records

theorem answersWithRecords_nil {r : Result} {s t : State} (hr : r = .next t) (ht : t.trace = s.trace) :
    AnswersWithRecords r s [] :=
  ⟨t, hr, by rw [ht, List.append_nil]⟩

/-- Both ends of a control transfer, the halt and the jump, keep the trace. -/
theorem trace_halt_or_jump (s : State) (target : Word) (b : Bool) :
    (if b then s.raiseHalt else s.setPc target).forceZero.trace = s.trace := by
  cases b <;> rfl

/-- No instruction ends in a fault or a refusal, and what it adds to the trace is `recordsOf`: only `lw` and `sw` raise
an address event (R81, R132). -/
theorem exec_answersWithRecords (i : Instr) (s : State) : AnswersWithRecords (exec i s) s (recordsOf i s) := by
  cases i with
  | add rA rB rC => exact answersWithRecords_nil (exec_add s rA rB rC) rfl
  | sub rA rB rC => exact answersWithRecords_nil (exec_sub s rA rB rC) rfl
  | or rA rB rC => exact answersWithRecords_nil (exec_or s rA rB rC) rfl
  | and rA rB rC => exact answersWithRecords_nil (exec_and s rA rB rC) rfl
  | slt rA rB rC => exact answersWithRecords_nil (exec_slt s rA rB rC) rfl
  | addi rA rB imm7 => exact answersWithRecords_nil (exec_addi s rA rB imm7) rfl
  | slti rA rB imm7 => exact answersWithRecords_nil (exec_slti s rA rB imm7) rfl
  | reservedFn5 ign => exact answersWithRecords_nil (exec_reservedFn5 s ign) rfl
  | reservedFn6 ign => exact answersWithRecords_nil (exec_reservedFn6 s ign) rfl
  | reservedFn7 ign => exact answersWithRecords_nil (exec_reservedFn7 s ign) rfl
  | reservedFn9 ign => exact answersWithRecords_nil (exec_reservedFn9 s ign) rfl
  | reservedFn10 ign => exact answersWithRecords_nil (exec_reservedFn10 s ign) rfl
  | reservedFn11 ign => exact answersWithRecords_nil (exec_reservedFn11 s ign) rfl
  | reservedFn12 ign => exact answersWithRecords_nil (exec_reservedFn12 s ign) rfl
  | reservedFn13 ign => exact answersWithRecords_nil (exec_reservedFn13 s ign) rfl
  | reservedFn14 ign => exact answersWithRecords_nil (exec_reservedFn14 s ign) rfl
  | reservedFn15 ign => exact answersWithRecords_nil (exec_reservedFn15 s ign) rfl
  | jr rA ign => exact answersWithRecords_nil (exec_jr s rA ign) (trace_halt_or_jump s _ _)
  | j imm13 => exact answersWithRecords_nil (exec_j s imm13) (trace_halt_or_jump s _ _)
  | jal imm13 =>
    exact answersWithRecords_nil (exec_jal s imm13) (trace_halt_or_jump (s.writeReg Config.link (s.pc + 1)) _ _)
  | jeq rA rB imm7 => exact answersWithRecords_nil (exec_jeq s rA rB imm7) rfl
  | lw rA rB imm7 => exact ⟨_, exec_lw s rA rB imm7, rfl⟩
  | sw rA rB imm7 => exact ⟨_, exec_sw s rA rB imm7, rfl⟩

/-- Settles O24: `exec_answersWithRecords` gives the successor and the records; the successor is the only one because
`exec` is a function, and the records are the only ones because they are what follows the old trace. -/
theorem executionIsTotal : Obligations.ExecutionIsTotal := by
  intro i s
  obtain ⟨t, hexec, htrace⟩ := exec_answersWithRecords i s
  refine ⟨t, hexec, ?_, recordsOf i s, htrace, ?_⟩
  · intro t' hexec'
    exact Host.Outcome.next.inj (hexec'.symm.trans hexec)
  · intro records hrecords
    exact List.append_cancel_left (hrecords.symm.trans htrace)

/-- In phase RUN and under a legal configuration a step executes the decoded instruction in the state as it is. -/
theorem step_eq_exec {s : State} (hs : s.started = true) (hh : s.halted = false) (hc : s.configLegal = true) :
    step s = exec (decode s.fetch) s := by
  simp only [step, (phase_run_iff s).mpr ⟨hs, hh⟩, hc, if_true]

/-- Settles O25: `step_eq_exec`, and the fetch is a memory read, which reduces its address (`Memory.read_mod`). -/
theorem stepRunsDecodedInstruction : Obligations.StepRunsDecodedInstruction := by
  intro s hs hh hc
  have hfetch : s.mem.read (s.pc.toNat % 8192) = s.fetch := s.mem.read_mod s.pc.toNat
  rw [hfetch]
  exact step_eq_exec hs hh hc

end Sys2Proof.Machine
end

section
/-! The arithmetic and logic instructions (41_alu.md): one frame for the family, whose members differ in the value they
write. -/

namespace Sys2Proof.Machine

/-- The state at which an instruction of the family ends: after the write, moving the pc and forcing register 0 change
what no register reads as, so the registers are those of `State.readReg_writeReg`. -/
theorem onlyRegisterWritten_writeReg_setPc (s : State) (r : Reg) (v : Word) :
    OnlyRegisterWritten s ((s.writeReg r v).setPc (s.pc + 1)).forceZero r v := by
  have hregs : RegisterWritten s ((s.writeReg r v).setPc (s.pc + 1)).forceZero r v := by
    intro q
    rw [State.readReg_forceZero, State.readReg_setPc, State.readReg_writeReg]
  have hrun : RunKept s ((s.writeReg r v).setPc (s.pc + 1)).forceZero := ⟨rfl, rfl, rfl⟩
  have hmem : MemoryKept s ((s.writeReg r v).setPc (s.pc + 1)).forceZero := fun _ => rfl
  have hobs : ObserverKept s ((s.writeReg r v).setPc (s.pc + 1)).forceZero := ⟨rfl, rfl⟩
  exact ⟨hregs, rfl, hrun, hmem, hobs⟩

/-- Settles O1: `exec_add` gives the next state, and the family's frame its registers and the rest. -/
theorem addWritesSum : Obligations.AddWritesSum :=
  fun rA rB rC s => ⟨_, exec_add s rA rB rC, onlyRegisterWritten_writeReg_setPc s rC _⟩

/-- Settles O2: `exec_sub` and the family's frame. -/
theorem subWritesDifference : Obligations.SubWritesDifference :=
  fun rA rB rC s => ⟨_, exec_sub s rA rB rC, onlyRegisterWritten_writeReg_setPc s rC _⟩

/-- Settles O3: `exec_or`, `exec_and` and the family's frame. -/
theorem orAndWriteBitwise : Obligations.OrAndWriteBitwise := by
  intro rA rB rC s
  constructor
  · exact ⟨_, exec_or s rA rB rC, onlyRegisterWritten_writeReg_setPc s rC _⟩
  · exact ⟨_, exec_and s rA rB rC, onlyRegisterWritten_writeReg_setPc s rC _⟩

/-- Settles O5: `exec_addi` and the family's frame. -/
theorem addiWritesSum : Obligations.AddiWritesSum :=
  fun rA rB imm7 s => ⟨_, exec_addi s rA rB imm7, onlyRegisterWritten_writeReg_setPc s rB _⟩

end Sys2Proof.Machine
end

section
/-! The control transfers (42_control.md): what the two ends of a transfer, the halt and the jump, change and keep, and
the whole effect of moving the pc. -/

namespace Sys2Proof.Machine

@[simp] theorem jrHalts_iff (s : State) (target : Word) : jrHalts s target = true ↔ target = s.pc := beq_iff_eq

@[simp] theorem equalWords_iff (a b : Word) : equalWords a b = true ↔ a = b := beq_iff_eq

theorem branchTarget_eq (s : State) (imm7 : BitVec 7) : branchTarget s imm7 = s.pc + 1 + simm7 imm7 := rfl

/-- Only the jump writes the pc, and only the halt raises the signal; `selfJump` is what the test `b` decides. -/
theorem jumpedOrHalted_halt_or_jump (s : State) (target : Word) {b : Bool} {selfJump : Prop}
    (htest : b = true ↔ selfJump) :
    JumpedOrHalted s (if b then s.raiseHalt else s.setPc target).forceZero target selfJump := by
  rw [← htest]
  cases b with
  | false => exact ⟨fun h => absurd h Bool.false_ne_true, fun _ => ⟨rfl, rfl⟩⟩
  | true => exact ⟨fun _ => ⟨rfl, rfl⟩, fun h => absurd rfl h⟩

theorem registersKept_halt_or_jump (s : State) (target : Word) (b : Bool) :
    RegistersKept s (if b then s.raiseHalt else s.setPc target).forceZero := by
  intro q
  rw [State.readReg_forceZero]
  cases b with
  | false => exact State.readReg_setPc s target q
  | true => exact State.readReg_raiseHalt s q

/-- Neither end of a transfer touches memory, the Cache Simulator and the trace, or what the host has set. -/
theorem frame_halt_or_jump (s : State) (target : Word) (b : Bool) :
    MemoryKept s (if b then s.raiseHalt else s.setPc target).forceZero ∧
      ObserverKept s (if b then s.raiseHalt else s.setPc target).forceZero ∧
      HostKept s (if b then s.raiseHalt else s.setPc target).forceZero := by
  cases b <;> exact ⟨fun _ => rfl, ⟨rfl, rfl⟩, rfl, rfl⟩

theorem onlyPcWritten_setPc (s : State) (pc : Word) : OnlyPcWritten s (s.setPc pc).forceZero pc := by
  have hregs : RegistersKept s (s.setPc pc).forceZero := registersKept_halt_or_jump s pc false
  have hrun : RunKept s (s.setPc pc).forceZero := ⟨rfl, rfl, rfl⟩
  obtain ⟨hmem, hobs, -⟩ := frame_halt_or_jump s pc false
  exact ⟨hregs, rfl, hrun, hmem, hobs⟩

/-- Settles O8: `exec_jr` gives the next state, `jrHalts_iff` its halt test, and the ends of a transfer the rest. -/
theorem jrJumpsOrHalts : Obligations.JrJumpsOrHalts := by
  intro rA ign s
  exact ⟨_, exec_jr s rA ign, jumpedOrHalted_halt_or_jump s _ (jrHalts_iff s _), registersKept_halt_or_jump s _ _,
    frame_halt_or_jump s _ _⟩

/-- Settles O11: `exec_jeq` moves the pc alone, to the target that `equalWords_iff` and `branchTarget_eq` read off. -/
theorem jeqBranchesOnEqual : Obligations.JeqBranchesOnEqual := by
  intro rA rB imm7 s
  refine ⟨_, exec_jeq s rA rB imm7, ?_⟩
  simp only [equalWords_iff, branchTarget_eq]
  exact onlyPcWritten_setPc s _

end Sys2Proof.Machine
end

section
/-! The Cache Simulator (44_cache.md): one access to a level (R146), the response to an address event (R150, R151), the
records of a step (R153) and the configuration echo (R155). -/

namespace Sys2Proof.Machine

/-! ### One access -/

theorem touch_of_mem {tag : Nat} {S : List Nat} (assoc : Nat) (h : tag ∈ S) :
    touch assoc tag S = tag :: S.filter (fun t => t != tag) := if_pos h

theorem touch_of_full {assoc tag : Nat} {S : List Nat} (h : tag ∉ S) (hfull : S.length = assoc) :
    touch assoc tag S = tag :: S.dropLast := by
  rw [touch, if_neg h, if_pos hfull]

theorem touch_of_room {assoc tag : Nat} {S : List Nat} (h : tag ∉ S) (hroom : S.length < assoc) :
    touch assoc tag S = tag :: S := by
  rw [touch, if_neg h, if_neg hroom.ne]

theorem CacheLevel.access_hit_iff (c : CacheLevel) (a : Nat) :
    (c.access a).hit = true ↔ tagOf c.geom a ∈ c.set (rowOf c.geom a) := decide_eq_true_iff

theorem CacheLevel.sets_length {c : CacheLevel} (h : c.wf = true) : c.sets.length = rowCount c.geom := by
  simp only [CacheLevel.wf, Bool.and_eq_true, decide_eq_true_eq] at h
  exact h.1

/-- The row an access uses is one of the level's sets, so what the access stores there is what is read back. -/
theorem CacheLevel.access_set_row {c : CacheLevel} (h : c.wf = true) (hg : c.geom.wellFormed = true) (a : Nat) :
    (c.access a).level.set (rowOf c.geom a) = touch c.geom.assoc (tagOf c.geom a) (c.set (rowOf c.geom a)) := by
  have hrow : rowOf c.geom a < c.sets.length := by
    rw [CacheLevel.sets_length h]
    exact rowOf_lt hg a
  exact c.access_set_self a hrow

/-- Settles O40: the access stores the touched set in its row (`access_set_row`), which is one of the three forms of
`touch`, and leaves every other row (`access_set_other`). -/
theorem accessMovesOrInsertsTag : Obligations.AccessMovesOrInsertsTag := by
  intro c a hwf hgeom
  have hrow := CacheLevel.access_set_row hwf hgeom a
  refine ⟨c.access_row a, c.access_geom a, c.access_hit_iff a, ?hit, ?full, ?room, ?other⟩
  case hit => exact fun h => hrow.trans (touch_of_mem _ h)
  case full => exact fun h hfull => hrow.trans (touch_of_full h hfull)
  case room => exact fun h hroom => hrow.trans (touch_of_room h hroom)
  case other => exact fun _ hq => c.access_set_other a hq

/-! ### The response to an address event -/

theorem Caches.handle_of_read {e : AddressEvent} (h : e.isWrite = false) (cs : Caches) : cs.handle e = cs.onRead e := by
  simp [Caches.handle, h]

theorem Caches.handle_of_write {e : AddressEvent} (h : e.isWrite = true) (cs : Caches) : cs.handle e = cs.onWrite e := by
  simp [Caches.handle, h]

theorem Caches.onRead_two_of_hit {c1 : CacheLevel} {e : AddressEvent} (h : (c1.access e.addr).hit = true)
    (c2 : CacheLevel) : (Caches.two c1 c2).onRead e =
      (.two (c1.access e.addr).level c2, [recordOf .L1 .HIT e (c1.access e.addr).row]) := if_pos h

theorem Caches.onRead_two_of_miss {c1 : CacheLevel} {e : AddressEvent} (h : (c1.access e.addr).hit = false)
    (c2 : CacheLevel) : (Caches.two c1 c2).onRead e =
      (.two (c1.access e.addr).level (c2.access e.addr).level,
        [recordOf .L1 .MISS e (c1.access e.addr).row,
          recordOf .L2 (loadLabel (c2.access e.addr).hit) e (c2.access e.addr).row]) :=
  if_neg (Bool.eq_false_iff.mp h)

/-- Settles O43: with two levels the level-1 result selects the branch of `onRead`. -/
theorem readEventLooksUpLevelTwoOnlyOnMiss : Obligations.ReadEventLooksUpLevelTwoOnlyOnMiss := by
  intro c1 c2 e hread
  simp only [Caches.handle_of_read hread]
  exact ⟨rfl, rfl, fun hhit => Caches.onRead_two_of_hit hhit c2, fun hmiss => Caches.onRead_two_of_miss hmiss c2⟩

/-- Settles O44: `onWrite` has one branch per number of levels and no test of the level-1 result. -/
theorem writeEventAccessesEveryLevel : Obligations.WriteEventAccessesEveryLevel := by
  intro c1 c2 e hwrite
  simp only [Caches.handle_of_write hwrite]
  exact ⟨rfl, rfl, rfl⟩

/-! ### The records of a step -/

@[simp] theorem Caches.levelOneHit_one (c1 : CacheLevel) (a : Nat) :
    (Caches.one c1).levelOneHit a = (c1.access a).hit := rfl

@[simp] theorem Caches.levelOneHit_two (c1 c2 : CacheLevel) (a : Nat) :
    (Caches.two c1 c2).levelOneHit a = (c1.access a).hit := rfl

/-- The read rows of the table of R153. -/
theorem Caches.onRead_shape (cs : Caches) (e : AddressEvent) :
    (cs.onRead e).2.map (fun r => (r.name, r.label)) ∈
      recordShapes false cs.spec.levels (cs.levelOneHit e.addr) := by
  obtain ⟨rfl, h⟩ | ⟨c1, rfl, h⟩ | ⟨c1, c2, rfl, hhit, h⟩ | ⟨c1, c2, rfl, hmiss, h⟩ := cs.onRead_cases e <;> rw [h]
  · exact List.mem_singleton.mpr rfl
  · rw [Caches.levelOneHit_one]
    cases (c1.access e.addr).hit <;> exact List.mem_singleton.mpr rfl
  · rw [Caches.levelOneHit_two, hhit]
    exact List.mem_singleton.mpr rfl
  · rw [Caches.levelOneHit_two, hmiss]
    cases (c2.access e.addr).hit with
    | true => exact List.mem_cons_self
    | false => exact List.mem_cons_of_mem _ (List.mem_singleton.mpr rfl)

/-- The write rows of the table of R153. -/
theorem Caches.onWrite_shape (cs : Caches) (e : AddressEvent) (hit1 : Bool) :
    (cs.onWrite e).2.map (fun r => (r.name, r.label)) ∈ recordShapes true cs.spec.levels hit1 := by
  obtain ⟨rfl, h⟩ | ⟨c1, rfl, h⟩ | ⟨c1, c2, rfl, h⟩ := cs.onWrite_cases e <;> rw [h] <;>
    exact List.mem_singleton.mpr rfl

theorem exec_trace {i : Instr} {s t : State} (h : exec i s = .next t) : t.trace = s.trace ++ recordsOf i s := by
  obtain ⟨t', hexec, htrace⟩ := exec_answersWithRecords i s
  obtain rfl : t' = t := Host.Outcome.next.inj (hexec.symm.trans h)
  exact htrace

theorem recordsOf_eq_nil {i : Instr} (hl : isLoad i = false) (hs : isStore i = false) (s : State) :
    recordsOf i s = [] := by
  cases i with
  | lw rA rB imm7 => exact Bool.noConfusion hl
  | sw rA rB imm7 => exact Bool.noConfusion hs
  | _ => rfl

/-- Settles O45: a step adds `recordsOf` to the trace (`exec_trace`): none for an instruction other than `lw` and `sw`,
and for those two what the Cache Simulator answers the event with, whose shape is that of the event's kind. -/
theorem recordsOfAStepHaveTheTableShape : Obligations.RecordsOfAStepHaveTheTableShape := by
  refine ⟨?other, ?load, ?store⟩
  case other =>
    intro i s t hl hs hexec
    rw [exec_trace hexec, recordsOf_eq_nil hl hs, List.append_nil]
  case load =>
    intro rA rB imm7 s t hexec
    exact ⟨_, exec_trace hexec, s.caches.onRead_shape ⟨false, effAddr s rA imm7, s.pc⟩⟩
  case store =>
    intro rA rB imm7 s t hexec
    exact ⟨_, exec_trace hexec, s.caches.onWrite_shape ⟨true, effAddr s rA imm7, s.pc⟩ _⟩

/-! ### The configuration echo -/

/-- Settles O53: `configEcho` has one `echoOf` per configured level. -/
theorem echoListsLevelOneFirst : Obligations.EchoListsLevelOneFirst :=
  ⟨rfl, fun _ => rfl, fun _ _ => rfl⟩

end Sys2Proof.Machine
end

section
/-! Reset (70_reset_and_hazards.md section 1, R211): what the reset state reads as, and what the host's `configure`
adds to it. -/

namespace Sys2Proof.Machine

theorem State.reset_regs_getElem (r : Reg) : State.reset.regs[r] = 0 := Vector.getElem_replicate r.isLt

@[simp] theorem State.reset_readReg (r : Reg) : State.reset.readReg r = 0 := by
  by_cases hr : r = 0
  · rw [hr, State.readReg_zero]
  · rw [State.readReg_of_ne_zero _ hr, State.reset_regs_getElem]

/-- The memory that lists no cell holds the reset value everywhere. -/
@[simp] theorem Memory.read_empty (a : Nat) : (Memory.mk []).read a = 0 := rfl

/-- Within the rows of the level a set is a copy of the empty list, and beyond them it is the default of
`CacheLevel.set`. -/
@[simp] theorem emptyLevel_set (g : Geometry) (r : Nat) : (emptyLevel g).set r = [] :=
  List.getElem?_getD_replicate_default_eq [] (rowCount g) r

/-- The configured levels are empty ones, each of some geometry (R140, R210). -/
theorem mem_levels_emptyCaches {cfg : CacheSpec} {c : CacheLevel} (h : c ∈ (emptyCaches cfg).levels) :
    ∃ g, c = emptyLevel g := by
  cases cfg with
  | off => exact absurd h List.not_mem_nil
  | one g1 => exact ⟨g1, List.mem_singleton.mp h⟩
  | two g1 g2 =>
    obtain h1 | h2 := List.mem_cons.mp h
    · exact ⟨g1, h1⟩
    · exact ⟨g2, List.mem_singleton.mp h2⟩

/-- The reset state meets both conditions of `configure`: phase LOAD, and no `configure` before (R177). -/
theorem configure_reset {cfg : CacheSpec} (h : cfg.wellFormed = true) :
    configure cfg State.reset = .next (State.reset.setCaches cfg) := by
  rw [configure_eq State.reset_started State.reset_configured, if_pos h]

theorem fetch_of_pc_zero {s : State} (h : s.pc = 0) : s.fetch = s.mem.read 0 := by
  rw [State.fetch, h]
  rfl

/-- Settles O46: the reset state's own reads, and `configure_reset`, whose state has empty levels alone
(`mem_levels_emptyCaches`) and keeps the pc of reset. -/
theorem resetValues : Obligations.ResetValues := by
  refine ⟨State.reset_readReg, State.reset_regs_getElem 0, State.reset_pc, State.reset_halted, Memory.read_empty,
    ?configured⟩
  case configured =>
    intro cfg hcfg
    refine ⟨_, configure_reset hcfg, emptyCaches_spec cfg, ?sets, fetch_of_pc_zero State.reset_pc⟩
    case sets =>
      intro c hc r
      obtain ⟨g, rfl⟩ := mem_levels_emptyCaches hc
      exact emptyLevel_set g r

end Sys2Proof.Machine
end

section
/-! The effect of an instruction, said once for all 23 of them: what it writes, stores, hands to the Cache Simulator, and
how it ends. The rules of the whole machine (10_state.md section 1, 40_execution_engine.md) are read off from it. -/

namespace Sys2Proof.Machine

/-- What one instruction does: the register it writes and the cell it stores to, with their Words, the address event it
emits, whether it halts, and the pc it goes on at when it does not (R12, R14, R110, R132). -/
structure Effect where
  write : Option (Reg × Word) := none
  store : Option (Nat × Word) := none
  event : Option AddressEvent := none
  halts : Bool := false
  pc : Word

/-- The effect of each instruction in a state. -/
def effectOf (i : Instr) (s : State) : Effect :=
  match i with
  | .add rA rB rC => { write := some (rC, s.readReg rA + s.readReg rB), pc := s.pc + 1 }
  | .sub rA rB rC => { write := some (rC, s.readReg rA - s.readReg rB), pc := s.pc + 1 }
  | .or rA rB rC => { write := some (rC, s.readReg rA ||| s.readReg rB), pc := s.pc + 1 }
  | .and rA rB rC => { write := some (rC, s.readReg rA &&& s.readReg rB), pc := s.pc + 1 }
  | .slt rA rB rC => { write := some (rC, lessThan (s.readReg rA) (s.readReg rB)), pc := s.pc + 1 }
  | .addi rA rB imm7 => { write := some (rB, s.readReg rA + simm7 imm7), pc := s.pc + 1 }
  | .slti rA rB imm7 => { write := some (rB, lessThan (s.readReg rA) (simm7 imm7)), pc := s.pc + 1 }
  | .jr rA _ => { halts := jrHalts s (s.readReg rA), pc := s.readReg rA }
  | .j imm13 => { halts := jHalts s (simm13 imm13), pc := simm13 imm13 }
  | .jal imm13 =>
    { write := some (Config.link, s.pc + 1), halts := jalHalts s (simm13 imm13), pc := simm13 imm13 }
  | .jeq rA rB imm7 =>
    { pc := if equalWords (s.readReg rA) (s.readReg rB) then branchTarget s imm7 else s.pc + 1 }
  | .lw rA rB imm7 =>
    { write := some (rB, s.mem.read (effAddr s rA imm7)), event := some ⟨false, effAddr s rA imm7, s.pc⟩,
      pc := s.pc + 1 }
  | .sw rA rB imm7 =>
    { store := some (effAddr s rA imm7, s.readReg rB), event := some ⟨true, effAddr s rA imm7, s.pc⟩,
      pc := s.pc + 1 }
  | .reservedFn5 _ | .reservedFn6 _ | .reservedFn7 _ | .reservedFn9 _ | .reservedFn10 _ => { pc := s.pc + 1 }
  | .reservedFn11 _ | .reservedFn12 _ | .reservedFn13 _ | .reservedFn14 _ | .reservedFn15 _ => { pc := s.pc + 1 }

/-- The state with an effect carried out and register 0 forced to 0 (R75). -/
def State.perform (s : State) (e : Effect) : State where
  regs := (e.write.elim s.regs fun w => s.regs.set w.1 w.2).set 0 0
  pc := if e.halts then s.pc else e.pc
  halted := e.halts || s.halted
  mem := e.store.elim s.mem fun w => s.mem.write w.1 w.2
  caches := e.event.elim s.caches fun a => (s.caches.handle a).1
  started := s.started
  configured := s.configured
  trace := e.event.elim s.trace fun a => s.trace ++ (s.caches.handle a).2

/-- Every instruction answers the next state that its effect describes. -/
theorem exec_eq_perform (i : Instr) (s : State) : exec i s = .next (s.perform (effectOf i s)) := by
  cases i with
  | jr rA ign =>
    rw [exec_jr, effectOf]
    cases jrHalts s (s.readReg rA) <;> rfl
  | j imm13 =>
    rw [exec_j, effectOf]
    cases jHalts s (simm13 imm13) <;> rfl
  | jal imm13 =>
    rw [exec_jal, effectOf]
    cases jalHalts s (simm13 imm13) <;> rfl
  | jeq rA rB imm7 => rw [exec_jeq]; rfl
  | _ => rfl

theorem exec_next_eq {i : Instr} {s t : State} (h : exec i s = .next t) : t = s.perform (effectOf i s) :=
  Host.Outcome.next.inj (h.symm.trans (exec_eq_perform i s))

/-! ### Rules of `perform` -/

@[simp] theorem State.perform_regs (s : State) (e : Effect) :
    (s.perform e).regs = (e.write.elim s.regs fun w => s.regs.set w.1 w.2).set 0 0 := rfl
@[simp] theorem State.perform_pc (s : State) (e : Effect) :
    (s.perform e).pc = if e.halts then s.pc else e.pc := rfl
@[simp] theorem State.perform_halted (s : State) (e : Effect) : (s.perform e).halted = (e.halts || s.halted) := rfl
@[simp] theorem State.perform_mem (s : State) (e : Effect) :
    (s.perform e).mem = e.store.elim s.mem fun w => s.mem.write w.1 w.2 := rfl
@[simp] theorem State.perform_caches (s : State) (e : Effect) :
    (s.perform e).caches = e.event.elim s.caches fun a => (s.caches.handle a).1 := rfl
@[simp] theorem State.perform_started (s : State) (e : Effect) : (s.perform e).started = s.started := rfl
@[simp] theorem State.perform_configured (s : State) (e : Effect) :
    (s.perform e).configured = s.configured := rfl
@[simp] theorem State.perform_trace (s : State) (e : Effect) :
    (s.perform e).trace = e.event.elim s.trace fun a => s.trace ++ (s.caches.handle a).2 := rfl

theorem State.perform_slot (s : State) (e : Effect) : (s.perform e).regs[0] = 0 :=
  Vector.getElem_set_self _

/-- An effect writes the register it names, but for register 0, and no other. -/
theorem State.readReg_perform (s : State) (e : Effect) (q : Reg) :
    (s.perform e).readReg q = e.write.elim (s.readReg q) fun w => if q = w.1 ∧ q ≠ 0 then w.2 else s.readReg q := by
  cases h : e.write with
  | none =>
    have hregs : (s.perform e).regs = s.forceZero.regs := by simp [h]
    rw [State.readReg_congr hregs, State.readReg_forceZero]
    rfl
  | some w =>
    have hregs : (s.perform e).regs = (s.writeReg w.1 w.2).forceZero.regs := by simp [h]
    rw [State.readReg_congr hregs, State.readReg_forceZero, State.readReg_writeReg]
    rfl

theorem State.perform_mem_of_no_store {e : Effect} (h : e.store = none) (s : State) : (s.perform e).mem = s.mem := by
  simp [h]

theorem State.perform_observer_of_no_event {e : Effect} (h : e.event = none) (s : State) :
    ObserverKept s (s.perform e) := by
  simp [ObserverKept, h]

theorem State.perform_configLegal (s : State) (e : Effect) : (s.perform e).configLegal = s.configLegal := by
  cases h : e.event <;> simp [State.configLegal, h]

theorem State.Inv.legal {s : State} (h : s.Inv) : s.configLegal = true := by
  obtain ⟨-, -, -, hlegal, -⟩ := h
  exact hlegal

/-- In a started machine an effect keeps the invariant: a store keeps memory canonical, an event keeps the sets
well-formed and the configuration, and register 0 is forced to 0. -/
theorem State.perform_inv {s : State} (hinv : s.Inv) (hstarted : s.started = true) (e : Effect) :
    (s.perform e).Inv := by
  obtain ⟨hmem, -, hsets, hlegal, -⟩ := hinv
  refine ⟨?mem, s.perform_slot e, ?sets, (s.perform_configLegal e).trans hlegal, fun _ => hstarted⟩
  case mem =>
    cases h : e.store with
    | none => rwa [State.perform_mem_of_no_store h]
    | some w => simpa [h] using Memory.write_wf hmem w.1 w.2
  case sets =>
    cases h : e.event with
    | none => rwa [(State.perform_observer_of_no_event h s).1]
    | some a => simpa [h] using Caches.handle_wf hlegal hsets a

/-- An effect depends on no register but those the instruction reads, and on nothing else but the pc and memory. -/
theorem effectOf_congr {i : Instr} {s s' : State} (hpc : s'.pc = s.pc) (hmem : s'.mem = s.mem)
    (hregs : ∀ q ∈ readsOf i, s'.readReg q = s.readReg q) : effectOf i s' = effectOf i s := by
  cases i with
  | add rA rB rC | sub rA rB rC | or rA rB rC | and rA rB rC | slt rA rB rC | jeq rA rB imm7 =>
    have hA : s'.readReg rA = s.readReg rA := hregs rA (by simp [readsOf])
    have hB : s'.readReg rB = s.readReg rB := hregs rB (by simp [readsOf])
    simp [effectOf, branchTarget_eq, hA, hB, hpc]
  | jr rA ign | addi rA rB imm7 | slti rA rB imm7 =>
    have hA : s'.readReg rA = s.readReg rA := hregs rA (by simp [readsOf])
    simp [effectOf, jrHalts, hA, hpc]
  | lw rA rB imm7 =>
    have haddr := State.effAddr_congr rA imm7 (hregs rA (by simp [readsOf]))
    simp [effectOf, haddr, hmem, hpc]
  | sw rA rB imm7 =>
    have haddr := State.effAddr_congr rA imm7 (hregs rA (by simp [readsOf]))
    have hB : s'.readReg rB = s.readReg rB := hregs rB (by simp [readsOf])
    simp [effectOf, haddr, hB, hpc]
  | _ => simp [effectOf, jHalts, jalHalts, hpc]

/-! ### Steps and runs -/

/-- Settles O26: the phase (R71) selects the fault. -/
theorem noStepOutsidePhaseRun : Obligations.NoStepOutsidePhaseRun := by
  intro s
  constructor
  · intro hs
    simp [step, (phase_load_iff s).mpr hs]
  · intro hs hh
    simp [step, (phase_halted_iff s).mpr ⟨hs, hh⟩]

/-- Settles O48: in phase RUN the step tests the configuration before it executes. -/
theorem stepRefusedUnderIllegalGeometry : Obligations.StepRefusedUnderIllegalGeometry := by
  intro s hs hh hillegal
  have hc : s.configLegal = false := hillegal
  simp [step, (phase_run_iff s).mpr ⟨hs, hh⟩, hc]

theorem step_eq_perform {s : State} (hs : s.started = true) (hh : s.halted = false) (hc : s.configLegal = true) :
    step s = .next (s.perform (effectOf (decode s.fetch) s)) := by
  rw [step_eq_exec hs hh hc, exec_eq_perform]

/-- Everything a step can do under a legal configuration, one case per phase (R71). -/
theorem step_cases {s : State} (hc : s.configLegal = true) :
    (s.started = false ∧ step s = .fault .notStarted) ∨
    (s.started = true ∧ s.halted = true ∧ step s = .fault .halted) ∨
    (s.started = true ∧ s.halted = false ∧ step s = .next (s.perform (effectOf (decode s.fetch) s))) := by
  obtain ⟨hload, hhalted⟩ := noStepOutsidePhaseRun s
  cases hs : s.started with
  | false => exact .inl ⟨rfl, hload hs⟩
  | true =>
    cases hh : s.halted with
    | true => exact .inr (.inl ⟨rfl, rfl, hhalted hs hh⟩)
    | false => exact .inr (.inr ⟨rfl, rfl, step_eq_perform hs hh hc⟩)

/-- Settles O30: a step that goes on was taken by a started machine (`step_next_cases`) and carried out the decoded
instruction's effect. -/
theorem invKeptByEveryStep : Obligations.InvKeptByEveryStep := by
  intro s t hinv hstep
  obtain ⟨hs, -, -, hexec⟩ := step_next_cases hstep
  rw [exec_next_eq hexec]
  exact State.perform_inv hinv hs _

/-- Settles O27, by induction on the number of steps: under the invariant a started machine halts or makes a step, and
after the step it meets the invariant and is started. -/
theorem runNeverFails : Obligations.RunNeverFails := by
  intro s hinv hstarted k
  induction k generalizing s with
  | zero => exact .inl ⟨s, run_zero s⟩
  | succ k ih =>
    obtain ⟨hs, -⟩ | ⟨-, -, hstep⟩ | ⟨-, -, hstep⟩ := step_cases hinv.legal
    · exact absurd hstarted (by simp [hs])
    · exact .inr (run_succ_fault hstep k)
    · rw [run_succ_next hstep]
      exact ih _ (invKeptByEveryStep s _ hinv hstep) hstarted

/-! ### What a program can see -/

/-- An effect is the same in two states that a program cannot tell apart. -/
theorem SameProgramState.effectOf_eq {s s' : State} (h : SameProgramState s s') (i : Instr) :
    effectOf i s' = effectOf i s := by
  obtain ⟨hregs, hpc, hmem, -, -⟩ := h
  exact effectOf_congr hpc.symm hmem.symm fun q _ => State.readReg_congr hregs.symm q

theorem SameProgramState.fetch_eq {s s' : State} (h : SameProgramState s s') : s'.fetch = s.fetch := by
  obtain ⟨-, hpc, hmem, -, -⟩ := h
  rw [State.fetch, State.fetch, hpc, hmem]

/-- What an effect does to the part a program can see does not read the rest. -/
theorem SameProgramState.perform {s s' : State} (h : SameProgramState s s') (e : Effect) :
    SameProgramState (s.perform e) (s'.perform e) := by
  obtain ⟨hregs, hpc, hmem, hhalted, hstarted⟩ := h
  simp [SameProgramState, hregs, hpc, hmem, hhalted, hstarted]

/-- Settles O28, by induction on the number of steps: in each phase both states make the same step, with one effect, and
the next states are again alike and under a legal configuration. -/
theorem cacheIsInvisibleToPrograms : Obligations.CacheIsInvisibleToPrograms := by
  intro k
  induction k with
  | zero =>
    intro s s' hsame _ _
    rw [run_zero, run_zero]
    exact ⟨fun t ht => ⟨s', rfl, Host.Outcome.next.inj ht ▸ hsame⟩, fun _ hf => (nomatch hf)⟩
  | succ k ih =>
    intro s s' hsame hlegal hlegal'
    have ⟨_, _, _, hhalted, hstarted⟩ := hsame
    obtain ⟨hs, hstep⟩ | ⟨hs, hh, hstep⟩ | ⟨hs, hh, hstep⟩ := step_cases hlegal
    · have hstep' := (noStepOutsidePhaseRun s').1 (hstarted ▸ hs)
      rw [run_succ_fault hstep, run_succ_fault hstep']
      exact ⟨fun _ ht => (nomatch ht), fun _ hf => hf⟩
    · have hstep' := (noStepOutsidePhaseRun s').2 (hstarted ▸ hs) (hhalted ▸ hh)
      rw [run_succ_fault hstep, run_succ_fault hstep']
      exact ⟨fun _ ht => (nomatch ht), fun _ hf => hf⟩
    · have hstep' := step_eq_perform (hstarted ▸ hs) (hhalted ▸ hh) hlegal'
      rw [hsame.fetch_eq, hsame.effectOf_eq] at hstep'
      rw [run_succ_next hstep, run_succ_next hstep']
      exact ih _ _ (hsame.perform _) ((s.perform_configLegal _).trans hlegal)
        ((s'.perform_configLegal _).trans hlegal')

/-! ### What every instruction does and leaves unchanged -/

/-- The register an effect writes is the one the table of 10_state.md section 1 names. -/
theorem effectOf_write_eq (i : Instr) (s : State) : ((effectOf i s).write.map Prod.fst).toList = writesOf i := by
  cases i <;> rfl

theorem effectOf_store_eq_none {i : Instr} (h : isStore i = false) (s : State) : (effectOf i s).store = none := by
  cases i with
  | sw rA rB imm7 => exact Bool.noConfusion h
  | _ => rfl

theorem effectOf_event_eq_none {i : Instr} (hl : isLoad i = false) (hs : isStore i = false) (s : State) :
    (effectOf i s).event = none := by
  cases i with
  | lw rA rB imm7 => exact Bool.noConfusion hl
  | sw rA rB imm7 => exact Bool.noConfusion hs
  | _ => rfl

@[simp] theorem jHalts_iff (s : State) (target : Word) :
    jHalts s target = true ↔ target.toNat = s.pc.toNat % 8192 := beq_iff_eq

@[simp] theorem jalHalts_iff (s : State) (target : Word) : jalHalts s target = true ↔ target = s.pc := beq_iff_eq

/-- The halt tests of the model are the conditions of the table of R110. -/
theorem effectOf_halts_iff (i : Instr) (s : State) : (effectOf i s).halts = true ↔ SelfJump i s := by
  cases i with
  | jr rA ign => exact jrHalts_iff s _
  | j imm13 => exact jHalts_iff s _
  | jal imm13 => exact jalHalts_iff s _
  | _ => exact ⟨fun h => Bool.noConfusion h, False.elim⟩

/-- Settles O12: in a state that is not halted the halt signal is raised by the effect alone, which then leaves the
pc. -/
theorem haltsExactlyOnSelfJump : Obligations.HaltsExactlyOnSelfJump := by
  intro i s t hs hexec
  have hhalted : t.halted = (effectOf i s).halts := by simp [exec_next_eq hexec, hs]
  rw [hhalted]
  refine ⟨effectOf_halts_iff i s, fun hhalts => ?_⟩
  simp [exec_next_eq hexec, hhalts]

/-- Settles O21: the forced write of R75 (`perform_slot`). -/
theorem registerZeroIsZeroAfterEveryStep : Obligations.RegisterZeroIsZeroAfterEveryStep := by
  intro i s t hexec
  rw [exec_next_eq hexec]
  exact ⟨s.perform_slot _, State.readReg_zero _⟩

/-- Settles O22: only the effect of `sw` has a store. -/
theorem onlyStoreChangesMemory : Obligations.OnlyStoreChangesMemory := by
  intro i s t hstore hexec a
  rw [exec_next_eq hexec, State.perform_mem_of_no_store (effectOf_store_eq_none hstore s)]

/-- Settles O23: only the effects of `lw` and `sw` have an address event. -/
theorem onlyLoadAndStoreReachCache : Obligations.OnlyLoadAndStoreReachCache := by
  intro i s t hload hstore hexec
  rw [exec_next_eq hexec]
  exact State.perform_observer_of_no_event (effectOf_event_eq_none hload hstore s) s

/-- A register outside the written ones reads as before. -/
theorem readReg_perform_of_not_written {i : Instr} {q : Reg} (h : q ∉ writesOf i) (s : State) :
    (s.perform (effectOf i s)).readReg q = s.readReg q := by
  rw [← effectOf_write_eq i s] at h
  rw [State.readReg_perform]
  cases hw : (effectOf i s).write with
  | none => rfl
  | some w =>
    have hq : q ≠ w.1 := by simpa [hw] using h
    simp [hq]

/-- What a written register reads as depends on the effect alone. -/
theorem readReg_perform_of_written {i : Instr} {s : State} {q : Reg} (h : q ∈ writesOf i) (s₁ s₂ : State) :
    (s₁.perform (effectOf i s)).readReg q = (s₂.perform (effectOf i s)).readReg q := by
  by_cases h0 : q = 0
  · rw [h0, State.readReg_zero, State.readReg_zero]
  · rw [← effectOf_write_eq i s] at h
    rw [State.readReg_perform, State.readReg_perform]
    cases hw : (effectOf i s).write with
    | none => simp [hw] at h
    | some w =>
      have hq : q = w.1 := by simpa [hw] using h
      simp [← hq, h0]

/-- Settles O20: an effect writes the registers of the table (`effectOf_write_eq`), and two states that agree in what
the instruction reads have one effect (`effectOf_congr`). -/
theorem instructionsReadAndWriteTheirRegisters : Obligations.InstructionsReadAndWriteTheirRegisters := by
  intro i s t hexec
  rw [exec_next_eq hexec]
  refine ⟨fun q hq => readReg_perform_of_not_written hq s, State.readReg_zero _, ?agree⟩
  case agree =>
    intro s' hpc hhalted hmem hcaches hstarted hconfigured htrace hregs
    have heffect : effectOf i s' = effectOf i s := effectOf_congr hpc hmem hregs
    refine ⟨_, exec_eq_perform i s', ?_⟩
    rw [heffect]
    refine ⟨?_, ?_, ?_, ?_, hstarted, hconfigured, ?_, fun q hq => readReg_perform_of_written hq s' s⟩
    all_goals simp [hpc, hhalted, hmem, hcaches, htrace]

end Sys2Proof.Machine
end

section
/-! The decoder and the encoder (30_encoding.md): the fields of a Word as numbers and as bit slices, the round trip in
both directions, the rows of the opcode map, and the sign extensions as numbers. -/

namespace Sys2Proof.Machine

open Sys2Proof.Laws

/-! ### The fields -/

/-- Settles O35: division by a power of 2 is a shift, and an index type's reduction is a slice's. -/
theorem fieldsAreBitSlices : Obligations.FieldsAreBitSlices := by
  intro w
  have himm7 : (fieldsOf w).imm7 = w.extractLsb' 0 7 := by
    apply BitVec.eq_of_toNat_eq; simp [fieldsOf]
  have himm13 : (fieldsOf w).imm13 = w.extractLsb' 0 13 := by
    apply BitVec.eq_of_toNat_eq; simp [fieldsOf]
  refine ⟨?_, ?_, ?_, ?_, ?_, himm7, himm13, congrArg sext7 himm7, congrArg sext13 himm13⟩
  all_goals
    apply BitVec.eq_of_toNat_eq
    simp [fieldsOf, Nat.shiftRight_eq_div_pow]

theorem fieldsOf_val (w : Word) :
    (fieldsOf w).op.val = w.toNat / 8192 ∧ (fieldsOf w).rA.val = w.toNat / 1024 % 8 ∧
    (fieldsOf w).rB.val = w.toNat / 128 % 8 ∧ (fieldsOf w).rC.val = w.toNat / 16 % 8 ∧
    (fieldsOf w).fn.val = w.toNat % 16 ∧ (fieldsOf w).imm7.toNat = w.toNat % 128 ∧
    (fieldsOf w).imm13.toNat = w.toNat % 8192 := by
  refine ⟨?_, rfl, rfl, rfl, rfl, rfl, rfl⟩
  exact Nat.mod_eq_of_lt (by omega)

/-! ### Encoding what was decoded -/

theorem encodeRRR_fieldsOf {w : Word} {fn : Nat} (hop : (fieldsOf w).op.val = 0) (hfn : (fieldsOf w).fn.val = fn) :
    encodeRRR fn (fieldsOf w).rA (fieldsOf w).rB (fieldsOf w).rC = w := by
  obtain ⟨hvop, hvA, hvB, hvC, hvfn, -, -⟩ := fieldsOf_val w
  rw [hop] at hvop
  apply BitVec.eq_of_toNat_eq
  simp only [encodeRRR, BitVec.toNat_ofNat, ← hfn, hvA, hvB, hvC, hvfn]
  omega

theorem encodeJr_fieldsOf {w : Word} (hop : (fieldsOf w).op.val = 0) (hfn : (fieldsOf w).fn.val = 8) :
    encodeJr (fieldsOf w).rA (ignored6 w) = w := by
  obtain ⟨hvop, hvA, -, -, hvfn, -, -⟩ := fieldsOf_val w
  rw [hop] at hvop
  rw [hfn] at hvfn
  apply BitVec.eq_of_toNat_eq
  simp only [encodeJr, ignored6, BitVec.toNat_ofNat, hvA]
  omega

theorem encodeReserved_fieldsOf {w : Word} {fn : Nat} (hop : (fieldsOf w).op.val = 0) (hfn : (fieldsOf w).fn.val = fn) :
    encodeReserved fn (ignored9 w) = w := by
  obtain ⟨hvop, -, -, -, hvfn, -, -⟩ := fieldsOf_val w
  rw [hop] at hvop
  apply BitVec.eq_of_toNat_eq
  simp only [encodeReserved, ignored9, BitVec.toNat_ofNat, ← hfn, hvfn]
  omega

theorem encodeRRI_fieldsOf {w : Word} {op : Nat} (hop : (fieldsOf w).op.val = op) :
    encodeRRI op (fieldsOf w).rA (fieldsOf w).rB (fieldsOf w).imm7 = w := by
  obtain ⟨hvop, hvA, hvB, -, -, hv7, -⟩ := fieldsOf_val w
  apply BitVec.eq_of_toNat_eq
  simp only [encodeRRI, BitVec.toNat_ofNat, ← hop, hvop, hvA, hvB, hv7]
  omega

theorem encodeJ_fieldsOf {w : Word} {op : Nat} (hop : (fieldsOf w).op.val = op) :
    encodeJ op (fieldsOf w).imm13 = w := by
  obtain ⟨hvop, -, -, -, -, -, hv13⟩ := fieldsOf_val w
  apply BitVec.eq_of_toNat_eq
  simp only [encodeJ, BitVec.toNat_ofNat, ← hop, hvop, hv13]
  omega

/-- Opcode 0: the function selects the format (R55, R56). The arms of `selectFn` come in the order of the function, so
that the ninth is that of `jr`, and the last says only that the function is none of the others. -/
theorem encode_selectFn {w : Word} (hop : (fieldsOf w).op.val = 0) : encode (selectFn w (fieldsOf w)) = w := by
  unfold selectFn
  split
  all_goals simp only [encode]
  case h_9 hfn => exact encodeJr_fieldsOf hop (congrArg Fin.val hfn)
  case h_1 hfn | h_2 hfn | h_3 hfn | h_4 hfn | h_5 hfn => exact encodeRRR_fieldsOf hop (congrArg Fin.val hfn)
  case h_16 =>
    have hfn : (fieldsOf w).fn.val = 15 := by grind
    exact encodeReserved_fieldsOf hop hfn
  all_goals next hfn => exact encodeReserved_fieldsOf hop (congrArg Fin.val hfn)

/-- Settles O33: the opcode selects the format, and each format puts the fields back in their places. -/
theorem encodeOfDecodeIsIdentity : Obligations.EncodeOfDecodeIsIdentity := by
  intro w
  unfold decode
  dsimp only
  split
  all_goals simp only [encode]
  case h_1 hop => exact encode_selectFn (congrArg Fin.val hop)
  case h_3 hop | h_4 hop => exact encodeJ_fieldsOf (congrArg Fin.val hop)
  case h_2 hop | h_5 hop | h_6 hop | h_7 hop | h_8 hop => exact encodeRRI_fieldsOf (congrArg Fin.val hop)

/-! ### Decoding what was encoded -/

/-- The row of every instruction, collected from the lemmas of its constructors. -/
theorem rowOfEncoding (i : Instr) : RowOfEncoding.Statement i := by
  cases i with
  | add rA rB rC => exact RowOfEncoding.add rA rB rC
  | sub rA rB rC => exact RowOfEncoding.sub rA rB rC
  | or rA rB rC => exact RowOfEncoding.or rA rB rC
  | and rA rB rC => exact RowOfEncoding.and rA rB rC
  | slt rA rB rC => exact RowOfEncoding.slt rA rB rC
  | jr rA ign => exact RowOfEncoding.jr rA ign
  | reservedFn5 ign => exact RowOfEncoding.reservedFn5 ign
  | reservedFn6 ign => exact RowOfEncoding.reservedFn6 ign
  | reservedFn7 ign => exact RowOfEncoding.reservedFn7 ign
  | reservedFn9 ign => exact RowOfEncoding.reservedFn9 ign
  | reservedFn10 ign => exact RowOfEncoding.reservedFn10 ign
  | reservedFn11 ign => exact RowOfEncoding.reservedFn11 ign
  | reservedFn12 ign => exact RowOfEncoding.reservedFn12 ign
  | reservedFn13 ign => exact RowOfEncoding.reservedFn13 ign
  | reservedFn14 ign => exact RowOfEncoding.reservedFn14 ign
  | reservedFn15 ign => exact RowOfEncoding.reservedFn15 ign
  | addi rA rB imm7 => exact RowOfEncoding.addi rA rB imm7
  | j imm13 => exact RowOfEncoding.j imm13
  | jal imm13 => exact RowOfEncoding.jal imm13
  | lw rA rB imm7 => exact RowOfEncoding.lw rA rB imm7
  | sw rA rB imm7 => exact RowOfEncoding.sw rA rB imm7
  | jeq rA rB imm7 => exact RowOfEncoding.jeq rA rB imm7
  | slti rA rB imm7 => exact RowOfEncoding.slti rA rB imm7


theorem fieldsOf_encodeRRR {fn : Nat} (hfn : fn < 16) (rA rB rC : Reg) :
    (fieldsOf (encodeRRR fn rA rB rC)).op = 0 ∧ (fieldsOf (encodeRRR fn rA rB rC)).fn = Fin.ofNat 16 fn ∧
      (fieldsOf (encodeRRR fn rA rB rC)).rA = rA ∧ (fieldsOf (encodeRRR fn rA rB rC)).rB = rB ∧
      (fieldsOf (encodeRRR fn rA rB rC)).rC = rC := by
  have := rA.isLt; have := rB.isLt; have := rC.isLt
  simp only [fieldsOf, encodeRRR, Fin.ofNat, Fin.ext_iff, BitVec.toNat_ofNat]
  omega

theorem fieldsOf_encodeJr (rA : Reg) (ign : BitVec 6) :
    (fieldsOf (encodeJr rA ign)).op = 0 ∧ (fieldsOf (encodeJr rA ign)).fn = 8 ∧
      (fieldsOf (encodeJr rA ign)).rA = rA ∧ ignored6 (encodeJr rA ign) = ign := by
  obtain ⟨hop, hfn⟩ := rowOf_encodeJr rA ign
  refine ⟨Fin.ext hop, Fin.ext hfn, Fin.ext ?_, BitVec.eq_of_toNat_eq ?_⟩
  all_goals
    simp only [fieldsOf, ignored6, encodeJr, Fin.ofNat, BitVec.toNat_ofNat]
    omega

theorem fieldsOf_encodeReserved {fn : Nat} (hfn : fn < 16) (ign : BitVec 9) :
    (fieldsOf (encodeReserved fn ign)).op = 0 ∧ (fieldsOf (encodeReserved fn ign)).fn = Fin.ofNat 16 fn ∧
      ignored9 (encodeReserved fn ign) = ign := by
  obtain ⟨hop, hval⟩ := rowOf_encodeReserved hfn ign
  refine ⟨Fin.ext hop, Fin.ext (hval.trans (Nat.mod_eq_of_lt hfn).symm), BitVec.eq_of_toNat_eq ?_⟩
  simp only [ignored9, encodeReserved, BitVec.toNat_ofNat]
  omega

theorem fieldsOf_encodeRRI {op : Nat} (hop : op < 8) (rA rB : Reg) (imm7 : BitVec 7) :
    (fieldsOf (encodeRRI op rA rB imm7)).op = Fin.ofNat 8 op ∧ (fieldsOf (encodeRRI op rA rB imm7)).rA = rA ∧
      (fieldsOf (encodeRRI op rA rB imm7)).rB = rB ∧ (fieldsOf (encodeRRI op rA rB imm7)).imm7 = imm7 := by
  have hval := rowOf_encodeRRI hop rA rB imm7
  refine ⟨Fin.ext (hval.trans (Nat.mod_eq_of_lt hop).symm), Fin.ext ?_, Fin.ext ?_, BitVec.eq_of_toNat_eq ?_⟩
  all_goals
    simp only [fieldsOf, encodeRRI, Fin.ofNat, BitVec.toNat_ofNat]
    omega

theorem fieldsOf_encodeJ {op : Nat} (hop : op < 8) (imm13 : BitVec 13) :
    (fieldsOf (encodeJ op imm13)).op = Fin.ofNat 8 op ∧ (fieldsOf (encodeJ op imm13)).imm13 = imm13 := by
  refine ⟨Fin.ext ((rowOf_encodeJ hop imm13).trans (Nat.mod_eq_of_lt hop).symm), BitVec.eq_of_toNat_eq ?_⟩
  simp only [fieldsOf, encodeJ, BitVec.toNat_ofNat]
  omega

/-- Settles O32: in each format the decoder reads back the opcode and the function, which select the instruction, and
its operands. -/
theorem decodeOfEncodeIsIdentity : Obligations.DecodeOfEncodeIsIdentity := by
  intro i
  cases i with
  | add rA rB rC | sub rA rB rC | or rA rB rC | and rA rB rC | slt rA rB rC =>
    simp [encode, decode, selectFn, fieldsOf_encodeRRR] <;> rfl
  | jr rA ign => simp [encode, decode, selectFn, fieldsOf_encodeJr]
  | addi rA rB imm7 | lw rA rB imm7 | sw rA rB imm7 | jeq rA rB imm7 | slti rA rB imm7 =>
    simp [encode, decode, fieldsOf_encodeRRI]
  | j imm13 | jal imm13 => simp [encode, decode, fieldsOf_encodeJ]
  | _ => simp [encode, decode, selectFn, fieldsOf_encodeReserved]

/-! ### The rows of the opcode map -/

/-- The opcode's bits of the mask keep the opcode in its place. -/
theorem toNat_and_opcodeMask (w : Word) : (w &&& 0xE000#16).toNat = (fieldsOf w).op.val * 8192 := by
  have hshift : w &&& 0xE000#16 = (w >>> 13) <<< 13 := by
    ext i hi
    interval_cases i <;> simp
  have hop : (fieldsOf w).op.val = w.toNat / 8192 := (fieldsOf_val w).1
  rw [hop, hshift, BitVec.toNat_shiftLeft, BitVec.toNat_ushiftRight, Nat.shiftLeft_eq, Nat.shiftRight_eq_div_pow]
  omega

/-- The mask of a row with a function keeps the function as well. -/
theorem toNat_and_functionMask (w : Word) :
    (w &&& 0xE00F#16).toNat = (fieldsOf w).op.val * 8192 + (fieldsOf w).fn.val := by
  have hsplit : w &&& 0xE00F#16 = w &&& 0xE000#16 ||| w &&& 0x000F#16 :=
    BitVec.and_or_distrib_left (x := w) (y := 0xE000#16) (z := 0x000F#16)
  have hfn : (w &&& 0x000F#16).toNat = (fieldsOf w).fn.val := Nat.and_two_pow_sub_one_eq_mod w.toNat 4
  have hlt : (fieldsOf w).fn.val < 2 ^ 13 := by omega
  rw [hsplit, BitVec.toNat_or, toNat_and_opcodeMask, hfn, mul_comm]
  exact (Nat.two_pow_add_eq_or_of_lt hlt _).symm

theorem rowMask_eq (i : Instr) : rowMask i = if (functionOf i).isSome then 0xE00F#16 else 0xE000#16 := by
  cases i <;> rfl

theorem rowMatch_eq (i : Instr) : (rowMatch i).toNat = opcodeOf i * 8192 + (functionOf i).getD 0 := by
  cases i <;> simp only [rowMatch, opcodeOf, functionOf] <;> decide

theorem functionOf_isSome_iff (i : Instr) : (functionOf i).isSome = (opcodeOf i == 0) := by
  cases i <;> rfl

theorem functionOf_lt {i : Instr} {k : Nat} (h : functionOf i = some k) : k < 16 := by
  obtain ⟨-, hfn⟩ := rowOfEncoding i
  have hk := hfn k (Option.mem_def.mpr h)
  omega

/-- A Word meets a row's match and mask exactly when it has the row's opcode and, if the row has one, its function. -/
theorem meets_row_iff (w : Word) (i : Instr) : w &&& rowMask i = rowMatch i ↔
    (fieldsOf w).op.val = opcodeOf i ∧ ∀ k ∈ functionOf i, (fieldsOf w).fn.val = k := by
  rw [← BitVec.toNat_inj, rowMatch_eq, rowMask_eq]
  cases hf : functionOf i with
  | none =>
    simp only [Option.isSome_none, Bool.false_eq_true, if_false, toNat_and_opcodeMask, Option.getD_none,
      Option.not_mem_none, false_implies, implies_true, and_true]
    omega
  | some k =>
    have hk := functionOf_lt hf
    simp only [Option.isSome_some, if_true, toNat_and_functionMask, Option.getD_some, Option.mem_some_iff, forall_eq']
    omega

/-- A Word has one opcode and one function, and the opcode decides whether the row has a function. -/
theorem functionOf_eq_of_meets {w : Word} {i k : Instr} (hi : w &&& rowMask i = rowMatch i)
    (hk : w &&& rowMask k = rowMatch k) : opcodeOf i = opcodeOf k ∧ functionOf i = functionOf k := by
  obtain ⟨hopi, hfni⟩ := (meets_row_iff w i).mp hi
  obtain ⟨hopk, hfnk⟩ := (meets_row_iff w k).mp hk
  have hop : opcodeOf i = opcodeOf k := hopi.symm.trans hopk
  have hsome : (functionOf i).isSome = (functionOf k).isSome := by
    rw [functionOf_isSome_iff, functionOf_isSome_iff, hop]
  refine ⟨hop, ?_⟩
  cases hfi : functionOf i with
  | none =>
    rw [hfi] at hsome
    exact (Option.not_isSome_iff_eq_none.mp (Bool.eq_false_iff.mp hsome.symm)).symm
  | some m =>
    rw [hfi] at hsome
    obtain ⟨n, hfk⟩ := Option.isSome_iff_exists.mp hsome.symm
    rw [hfk, ← hfni m hfi, hfnk n hfk]

/-- Settles O34: the Word is the encoding of what it decodes to, whose row it therefore meets, and a Word's opcode and
function fix the row. -/
theorem opcodeMapSelectsOneRow : Obligations.OpcodeMapSelectsOneRow := by
  intro w
  have hrow := rowOfEncoding (decode w)
  rw [RowOfEncoding.Statement, encodeOfDecodeIsIdentity w, ← meets_row_iff] at hrow
  refine ⟨hrow, fun i hi => ?_⟩
  obtain ⟨hop, hfn⟩ := functionOf_eq_of_meets hi hrow
  constructor
  · rw [rowMask_eq, rowMask_eq, hfn]
  · rw [← BitVec.toNat_inj, rowMatch_eq, rowMatch_eq, hop, hfn]

/-- Settles O37: `decode` runs on ten given Words. -/
theorem knownWordsDecode : Obligations.KnownWordsDecode := by
  unfold Obligations.KnownWordsDecode
  decide

/-! ### The sign extensions -/

/-- ORing bits above a field into its zero extension adds them. -/
theorem toNat_setWidth_or {n a : Nat} (v : BitVec n) (hfit : 2 ^ n * a + v.toNat < 2 ^ 16) :
    (v.setWidth 16 ||| BitVec.ofNat 16 (2 ^ n * a)).toNat = v.toNat + 2 ^ n * a := by
  rw [BitVec.toNat_or, BitVec.toNat_setWidth, BitVec.toNat_ofNat, Nat.mod_eq_of_lt (by omega),
    Nat.mod_eq_of_lt (by omega), Nat.lor_comm, ← Nat.two_pow_add_eq_or_of_lt v.isLt, Nat.add_comm]

theorem sext7_toNat (v : BitVec 7) :
    (sext7 v).toNat = if v.toNat < 64 then v.toNat else v.toNat + 0xFF80 := by
  have hmsb : v.getLsbD 6 = decide (64 ≤ v.toNat) := BitVec.msb_eq_decide v
  by_cases h : v.toNat < 64
  · have hclear : ¬v.getLsbD 6 = true := by rw [hmsb, decide_eq_true_iff]; omega
    rw [if_pos h, sext7, if_neg hclear, BitVec.toNat_setWidth]
    omega
  · have hset : v.getLsbD 6 = true := by rw [hmsb, decide_eq_true_iff]; omega
    rw [if_neg h, sext7, if_pos hset]
    exact toNat_setWidth_or (a := 511) v (by omega)

theorem sext13_toNat (v : BitVec 13) :
    (sext13 v).toNat = if v.toNat < 4096 then v.toNat else v.toNat + 0xE000 := by
  have hmsb : v.getLsbD 12 = decide (4096 ≤ v.toNat) := BitVec.msb_eq_decide v
  by_cases h : v.toNat < 4096
  · have hclear : ¬v.getLsbD 12 = true := by rw [hmsb, decide_eq_true_iff]; omega
    rw [if_pos h, sext13, if_neg hclear, BitVec.toNat_setWidth]
    omega
  · have hset : v.getLsbD 12 = true := by rw [hmsb, decide_eq_true_iff]; omega
    rw [if_neg h, sext13, if_pos hset]
    exact toNat_setWidth_or (a := 7) v (by omega)

/-- Settles O36: the value as a number (`sext7_toNat`, `sext13_toNat`), and what it says of the signed value. -/
theorem signExtensionKeepsValue : Obligations.SignExtensionKeepsValue := by
  constructor
  · intro v
    refine ⟨sext7_toNat v, ?_⟩
    rw [BitVec.toInt_eq_toNat_cond, BitVec.toInt_eq_toNat_cond, sext7_toNat]
    split_ifs <;> omega
  · intro v
    refine ⟨sext13_toNat v, ?_⟩
    rw [BitVec.toInt_eq_toNat_cond, BitVec.toInt_eq_toNat_cond, sext13_toNat]
    split_ifs <;> omega

/-- Settles O18: the sum of Words is reduced modulo 65536, a multiple of 8192, and the extensions to 13 and to 16 bits
of one immediate agree modulo 8192. -/
theorem effectiveAddressIsReducedSum : Obligations.EffectiveAddressIsReducedSum := by
  intro rA imm7 s
  have hsum : effAddr s rA imm7 = ((s.readReg rA).toNat + (simm7 imm7).toNat) % 8192 := by
    rw [effAddr, cellIndex, Config.memWords, BitVec.toNat_add]
    omega
  have hext : (imm7.signExtend 13).toNat = (simm7 imm7).toNat % 8192 := by
    rw [BitVec.toNat_signExtend, BitVec.msb_eq_decide, BitVec.toNat_setWidth, simm7, sext7_toNat]
    simp only [decide_eq_true_iff]
    split_ifs <;> omega
  rw [hext, hsum]
  exact ⟨rfl, by omega⟩

end Sys2Proof.Machine
end

section
/-! The comparisons, the reserved words, the jumps and the loads and stores (41_alu.md to 43_loadstore.md). -/

namespace Sys2Proof.Machine

/-! ### The comparisons and the reserved words -/

/-- Settles O4: `exec_slt` and the frame of the family; `lessThan` is the unsigned test (R94). -/
theorem sltWritesUnsignedOrder : Obligations.SltWritesUnsignedOrder :=
  fun rA rB rC s => ⟨_, exec_slt s rA rB rC, onlyRegisterWritten_writeReg_setPc s rC _⟩

/-- Settles O6: `exec_slti` and the frame of the family. -/
theorem sltiWritesUnsignedOrder : Obligations.SltiWritesUnsignedOrder :=
  fun rA rB imm7 s => ⟨_, exec_slti s rA rB imm7, onlyRegisterWritten_writeReg_setPc s rB _⟩

/-- Settles O7: each of the ten ends as the no-operation does, which moves the pc alone. -/
theorem reservedWordsOnlyAdvance : Obligations.ReservedWordsOnlyAdvance := by
  intro ign s i hi
  have hexec : exec i s = .next (s.setPc (s.pc + 1)).forceZero := by
    simp only [List.mem_cons, List.not_mem_nil, or_false] at hi
    obtain rfl | rfl | rfl | rfl | rfl | rfl | rfl | rfl | rfl | rfl := hi <;> rfl
  exact ⟨_, hexec, onlyPcWritten_setPc s _⟩

/-! ### The jumps -/

/-- Settles O9: `exec_j`, its halt test `jHalts_iff`, and the ends of a transfer. -/
theorem jJumpsOrHalts : Obligations.JJumpsOrHalts := by
  intro imm13 s
  exact ⟨_, exec_j s imm13, jumpedOrHalted_halt_or_jump s _ (jHalts_iff s _), registersKept_halt_or_jump s _ _,
    frame_halt_or_jump s _ _⟩

/-- Settles O10: the transfer is made from the state with the link written, which differs from `s` in register 7
alone. -/
theorem jalLinksThenJumpsOrHalts : Obligations.JalLinksThenJumpsOrHalts := by
  intro imm13 s
  let linked := s.writeReg Config.link (s.pc + 1)
  refine ⟨_, exec_jal s imm13, fun q => ?_,
    jumpedOrHalted_halt_or_jump linked _ (jalHalts_iff s (simm13 imm13)), frame_halt_or_jump linked _ _⟩
  rw [registersKept_halt_or_jump linked _ _ q]
  exact State.readReg_writeReg s 7 (s.pc + 1) q

/-- Settles O13: with bit 12 set the target is at least 0xF000, and the halt test compares it with a number below
8192. -/
theorem jWithBit12SetNeverHalts : Obligations.JWithBit12SetNeverHalts := by
  intro imm13 s himm
  have htarget : (simm13 imm13).toNat = imm13.toNat + 0xE000 := by
    rw [simm13, sext13_toNat, if_neg (by omega)]
  obtain ⟨t, hexec, ⟨-, hjump⟩, -⟩ := jJumpsOrHalts imm13 s
  obtain ⟨hhalted, hpc⟩ := hjump (by omega)
  rw [← hpc] at htarget
  exact ⟨t, hexec, hhalted, htarget, by omega⟩

theorem step_eq_exec_of_fetch {s : State} {i : Instr} (hs : s.started = true) (hh : s.halted = false)
    (hc : s.configLegal = true) (hfetch : s.fetch = encode i) : step s = exec i s := by
  rw [step_eq_exec hs hh hc, hfetch, decodeOfEncodeIsIdentity]

/-- The fetch reduces the pc modulo 8192 (R72). -/
theorem fetch_eq_of_same_cell {s t : State} (hmem : MemoryKept s t) (hpc : t.pc.toNat % 8192 = s.pc.toNat % 8192) :
    t.fetch = s.fetch := by
  rw [State.fetch, State.fetch, hmem, ← Memory.read_mod, hpc, Memory.read_mod]

/-- Settles O14: two `jal` steps of O10. Below 4096 the target is the immediate itself: on the first step it is not the
raw pc, which only names the same cell, and on the second step it is. -/
theorem jalAliasHaltsOnSecondStep : Obligations.JalAliasHaltsOnSecondStep := by
  intro imm13 s hs hh hc himm hfetch hpc
  have htarget : (simm13 imm13).toNat = imm13.toNat := by rw [simm13, sext13_toNat, if_pos himm]
  obtain ⟨t, hexec, hlink, ⟨-, hjump⟩, hmem, ⟨hcaches, -⟩, hstarted, -⟩ := jalLinksThenJumpsOrHalts imm13 s
  have hother : simm13 imm13 ≠ s.pc := fun h => by rw [h] at htarget; omega
  obtain ⟨hthalted, htpc⟩ := hjump hother
  obtain ⟨u, hexec', hlink', ⟨hhalt, -⟩, -⟩ := jalLinksThenJumpsOrHalts imm13 t
  obtain ⟨huhalted, hupc⟩ := hhalt htpc.symm
  have htfetch : t.fetch = encode (.jal imm13) := by
    rw [← hfetch]
    apply fetch_eq_of_same_cell hmem
    rw [htpc, htarget, hpc]
    omega
  have htc : t.configLegal = true := by rwa [State.configLegal, hcaches]
  have hstep : step s = .next t := by rw [step_eq_exec_of_fetch hs hh hc hfetch, hexec]
  have hstep' : step t = .next u := by
    rw [step_eq_exec_of_fetch (hstarted.trans hs) (hthalted.trans hh) htc htfetch, hexec']
  have hlinkValue : (u.readReg 7).toNat = imm13.toNat + 1 := by
    have hone : (1 : Word).toNat = 1 := rfl
    rw [hlink' 7, if_pos (by decide), BitVec.toNat_add, htpc, htarget, hone]
    omega
  have hreturn : t.readReg 7 = s.pc + 1 := by rw [hlink 7, if_pos (by decide)]
  exact ⟨t, u, hstep, by rw [htpc, htarget], hthalted.trans hh, hreturn, hstep', huhalted, hupc, hlinkValue⟩

theorem forceZero_eq_self {s : State} (h : s.regs[0] = 0) : s.forceZero = s := by
  have hregs : s.regs.set 0 0 = s.regs := by
    rw [← h]
    exact Vector.set_getElem_self _
  rw [State.forceZero, hregs]

/-- The offset -1 leads back to the `jeq` itself. -/
theorem branchTarget_minus_one (s : State) : branchTarget s 0x7F = s.pc := by
  have hminus : (1 : Word) + simm7 0x7F = 0 := by decide
  rw [branchTarget_eq, BitVec.add_assoc, hminus, add_zero]

/-- Settles O15: one step leads back to the same state, so by induction any number of steps does. -/
theorem jeqToItselfRunsForever : Obligations.JeqToItselfRunsForever := by
  intro r s hs hh hc hzero hfetch k
  have hstep : step s = .next s := by
    rw [step_eq_exec_of_fetch hs hh hc hfetch, exec_jeq, if_pos ((equalWords_iff _ _).mpr rfl),
      branchTarget_minus_one]
    exact congrArg _ (forceZero_eq_self hzero)
  induction k with
  | zero => exact run_zero s
  | succ k ih => rw [run_succ_next hstep, ih]

/-! ### Load and store -/

/-- Settles O16: `exec_lw`; the event and the pc leave the registers as the write made them. -/
theorem lwLoadsCell : Obligations.LwLoadsCell := by
  intro rA rB imm7 s
  refine ⟨_, exec_lw s rA rB imm7, fun q => ?_, rfl, ⟨rfl, rfl, rfl⟩, fun _ => rfl, rfl, rfl⟩
  rw [State.readReg_forceZero, State.readReg_setPc, State.readReg_event, State.readReg_writeReg]

/-- Settles O17: `exec_sw`, and `Memory.read_write` for the cells. -/
theorem swStoresCell : Obligations.SwStoresCell := by
  intro rA rB imm7 s
  refine ⟨_, exec_sw s rA rB imm7, fun b => s.mem.read_write _ b _, fun q => ?_, rfl, ⟨rfl, rfl, rfl⟩, rfl, rfl⟩
  rw [State.readReg_forceZero, State.readReg_setPc, State.readReg_event, State.readReg_store]

/-- Settles O19: the fetch reads the memory that `sw` left (O17), and the effective address is below 8192. -/
theorem fetchSeesEarlierStore : Obligations.FetchSeesEarlierStore := by
  intro rA rB imm7 s t pc hexec
  obtain ⟨t', hexec', hcells, -⟩ := swStoresCell rA rB imm7 s
  obtain rfl : t' = t := Host.Outcome.next.inj (hexec'.symm.trans hexec)
  have haddr : effAddr s rA imm7 % 8192 = effAddr s rA imm7 := Nat.mod_eq_of_lt (State.effAddr_lt s rA imm7)
  have hread := hcells pc.toNat
  rwa [haddr] at hread

end Sys2Proof.Machine
end

section
/-! Memory's canonical form as unique data, strict LRU against the recency order of tags, and the arithmetic of a legal
geometry (10_state.md, 20_memory.md, 44_cache.md). -/

namespace Sys2Proof.Machine

/-! ### The canonical form -/

theorem cellsWf_cons {low k : Nat} {v : Word} {rest : List (Nat × Word)} : cellsWf low ((k, v) :: rest) = true ↔
    low ≤ k ∧ k < 8192 ∧ v ≠ Config.blankCell ∧ cellsWf (k + 1) rest = true := by
  simp only [cellsWf, Bool.and_eq_true, decide_eq_true_eq, and_assoc]
  rfl

theorem lookupCell_head (k : Nat) (v : Word) (rest : List (Nat × Word)) : lookupCell k ((k, v) :: rest) = v :=
  if_pos rfl

theorem lookupCell_tail {a k : Nat} (h : k ≠ a) (v : Word) (rest : List (Nat × Word)) :
    lookupCell a ((k, v) :: rest) = lookupCell a rest := if_neg h

/-- The first cell of a list in canonical form is listed in every other that reads alike, so none of the others starts
above it. -/
theorem not_lt_head_of_lookup_eq {low low' k k' : Nat} {v v' : Word} {rest rest' : List (Nat × Word)}
    (hl : cellsWf low ((k, v) :: rest) = true) (hl' : cellsWf low' ((k', v') :: rest') = true)
    (hread : ∀ a < 8192, lookupCell a ((k, v) :: rest) = lookupCell a ((k', v') :: rest')) : ¬k < k' := by
  intro hlt
  obtain ⟨-, hk, hv, -⟩ := cellsWf_cons.mp hl
  obtain ⟨-, hk', hv', hrest'⟩ := cellsWf_cons.mp hl'
  have hblank := lookupCell_below hlt (cellsWf_cons.mpr ⟨le_rfl, hk', hv', hrest'⟩)
  rw [← hread k hk, lookupCell_head] at hblank
  exact hv hblank

/-- Two lists of cells in canonical form that hold the same Words are the same list, by induction on both: their heads
have the same address and Word, and below the tails' addresses both read as blank. -/
theorem cells_eq_of_lookup_eq {low : Nat} {l l' : List (Nat × Word)} (hl : cellsWf low l = true)
    (hl' : cellsWf low l' = true) (hread : ∀ a < 8192, lookupCell a l = lookupCell a l') : l = l' := by
  induction l generalizing low l' with
  | nil =>
    cases l' with
    | nil => rfl
    | cons c' rest' =>
      obtain ⟨-, hk, hv, -⟩ := cellsWf_cons.mp hl'
      exact absurd ((hread c'.1 hk).trans (lookupCell_head ..)).symm hv
  | cons c rest ih =>
    obtain ⟨k, v⟩ := c
    obtain ⟨-, hk, hv, hrest⟩ := cellsWf_cons.mp hl
    cases l' with
    | nil => exact absurd ((lookupCell_head ..).symm.trans (hread k hk)) hv
    | cons c' rest' =>
      obtain ⟨k', v'⟩ := c'
      obtain rfl : k = k' := Nat.le_antisymm
        (Nat.not_lt.mp (not_lt_head_of_lookup_eq hl' hl fun a ha => (hread a ha).symm))
        (Nat.not_lt.mp (not_lt_head_of_lookup_eq hl hl' hread))
      obtain ⟨-, -, -, hrest'⟩ := cellsWf_cons.mp hl'
      have hval := hread k hk
      rw [lookupCell_head, lookupCell_head] at hval
      have htail : ∀ a < 8192, lookupCell a rest = lookupCell a rest' := by
        intro a ha
        by_cases hka : k = a
        · rw [lookupCell_below (by omega) hrest, lookupCell_below (by omega) hrest']
        · rw [← lookupCell_tail hka v rest, ← lookupCell_tail hka v' rest', hread a ha]
      rw [hval, ih hrest hrest' htail]

/-- Settles O39: `Memory.write_wf`, and the uniqueness of the list of cells, whose addresses a read does not reduce. -/
theorem canonicalMemoriesAreEqualWhenTheyReadAlike : Obligations.CanonicalMemoriesAreEqualWhenTheyReadAlike := by
  refine ⟨fun m a v h => Memory.write_wf h a v, fun m n hm hn hread => ?_⟩
  have hcells : m.cells = n.cells := by
    refine cells_eq_of_lookup_eq hm hn fun a ha => ?_
    have hindex : cellIndex a = a := Nat.mod_eq_of_lt ha
    simpa only [Memory.read, hindex] using hread a
  cases m
  cases n
  exact congrArg Memory.mk hcells

/-! ### Strict LRU -/

/-- Removing an element from the first `m + 1` gives the first `m` of the list without it. -/
theorem erase_take_succ_of_mem {t m : Nat} {L : List Nat} (h : t ∈ L.take (m + 1)) :
    (L.take (m + 1)).erase t = (L.erase t).take m := by
  induction L generalizing m with
  | nil => exact absurd h List.not_mem_nil
  | cons x xs ih =>
    by_cases hx : x = t
    · simp [hx]
    · rw [List.take_succ_cons, List.mem_cons] at h
      have hmem : t ∈ xs.take m := h.resolve_left (Ne.symm hx)
      cases m with
      | zero => exact absurd hmem List.not_mem_nil
      | succ m => simp [hx, ih hmem]

/-- Removing an element that is not among the first `m` keeps those. -/
theorem take_erase_of_not_mem {t m : Nat} {L : List Nat} (h : t ∉ L.take m) (hm : m ≤ L.length) :
    (L.erase t).take m = L.take m := by
  conv_lhs => rw [← List.take_append_drop m L, List.erase_append_right _ h]
  exact List.take_left' (List.length_take_of_le hm)

/-- One use of a tag: touching the cut list is cutting the list in which the tag has moved to the front. The three
cases are those of `touch`. -/
theorem touch_take {n t : Nat} {L : List Nat} (hn : 1 ≤ n) (hL : L.Nodup) :
    touch n t (L.take n) = (t :: L.filter (fun u => u != t)).take n := by
  obtain ⟨m, rfl⟩ : ∃ m, n = m + 1 := ⟨n - 1, by omega⟩
  rw [← hL.erase_eq_filter, List.take_succ_cons]
  by_cases hmem : t ∈ L.take (m + 1)
  · have hcut : (L.take (m + 1)).Nodup := hL.sublist (List.take_sublist _ _)
    rw [touch_of_mem _ hmem, ← hcut.erase_eq_filter, erase_take_succ_of_mem hmem]
  · by_cases hfull : m + 1 ≤ L.length
    · have hfirst : t ∉ L.take m := fun h => hmem (List.take_subset_take_left L (Nat.le_succ m) h)
      rw [touch_of_full hmem (List.length_take_of_le hfull), List.dropLast_eq_take, List.length_take_of_le hfull,
        List.take_take, Nat.add_sub_cancel, Nat.min_eq_left (Nat.le_succ m),
        take_erase_of_not_mem hfirst (by omega)]
    · have hall : L.take (m + 1) = L := List.take_of_length_le (by omega)
      rw [hall] at hmem
      rw [hall, touch_of_room hmem (by omega), List.erase_of_not_mem hmem, List.take_of_length_le (by omega)]

theorem latestFirst_nodup (tags : List Nat) : (latestFirst tags).Nodup := by
  induction tags with
  | nil => exact List.nodup_nil
  | cons t earlier ih => exact List.nodup_cons.mpr ⟨by simp, ih.filter _⟩

theorem CacheLevel.after_geom (c : CacheLevel) (accesses : List Nat) : (c.after accesses).geom = c.geom := by
  induction accesses with
  | nil => rfl
  | cons a earlier ih => exact ih

theorem CacheLevel.after_wf {c : CacheLevel} (ha : 1 ≤ c.geom.assoc) (h : c.wf = true) (accesses : List Nat) :
    (c.after accesses).wf = true := by
  induction accesses with
  | nil => exact h
  | cons a earlier ih =>
    rw [← c.after_geom earlier] at ha
    exact CacheLevel.access_wf ha ih a

theorem rowTags_cons_same {g : Geometry} {r a : Nat} (h : rowOf g a = r) (earlier : List Nat) :
    rowTags g r (a :: earlier) = tagOf g a :: rowTags g r earlier := by
  simp [rowTags, h]

theorem rowTags_cons_other {g : Geometry} {r a : Nat} (h : rowOf g a ≠ r) (earlier : List Nat) :
    rowTags g r (a :: earlier) = rowTags g r earlier := by
  simp [rowTags, h]

/-- Settles O41, by induction on the accesses: one to the row touches its set (`access_set_row`), which `touch_take`
follows in the recency order, and one to another row changes neither. -/
theorem setsHoldTheLatestTags : Obligations.SetsHoldTheLatestTags := by
  intro g accesses r hg _
  induction accesses with
  | nil => exact (emptyLevel_set g r).trans List.take_nil.symm
  | cons a earlier ih =>
    have hgeom : ((emptyLevel g).after earlier).geom = g := (emptyLevel g).after_geom earlier
    by_cases hrow : rowOf g a = r
    · have hwf := CacheLevel.after_wf (c := emptyLevel g) (assoc_pos hg) (emptyLevel_wf g) earlier
      have hset := CacheLevel.access_set_row hwf (hgeom.symm ▸ hg) a
      rw [hgeom, hrow, ih, touch_take (assoc_pos hg) (latestFirst_nodup _)] at hset
      rw [rowTags_cons_same hrow]
      exact hset
    · have hother : r ≠ rowOf ((emptyLevel g).after earlier).geom a := by rw [hgeom]; exact Ne.symm hrow
      rw [rowTags_cons_other hrow, ← ih]
      exact CacheLevel.access_set_other _ a hother

/-! ### Legal geometries -/

theorem rowCount_eq (g : Geometry) : rowCount g = g.size / (g.assoc * g.blockSize) := Nat.div_div_eq_div_mul ..

theorem blockId_eq (g : Geometry) (a : Nat) : blockId g a = tagOf g a * rowCount g + rowOf g a :=
  (Nat.div_add_mod' _ _).symm

/-- Settles O42: row and tag are the remainder and the quotient of the block number by the number of rows. -/
theorem rowAndTagDetermineBlock : Obligations.RowAndTagDetermineBlock := by
  intro g a b hg
  refine ⟨rowCount_eq g, rowOf_lt hg a, blockId_eq g a, ?_, ?_⟩
  · rintro ⟨hrow, htag⟩
    calc blockId g a = tagOf g a * rowCount g + rowOf g a := blockId_eq g a
      _ = tagOf g b * rowCount g + rowOf g b := by rw [hrow, htag]
      _ = blockId g b := (blockId_eq g b).symm
  · intro hblock
    exact ⟨congrArg (· % rowCount g) hblock, congrArg (· / rowCount g) hblock⟩

/-- A level is legal exactly when its integers are positive and it has a row: the quotient of R141 is positive exactly
when its divisor is and does not exceed the size. -/
theorem wellFormed_iff (g : Geometry) :
    g.wellFormed = true ↔ 1 ≤ g.size ∧ 1 ≤ g.assoc ∧ 1 ≤ g.blockSize ∧ 1 ≤ rowCount g := by
  have hrows : 1 ≤ rowCount g ↔ 0 < g.assoc * g.blockSize ∧ g.assoc * g.blockSize ≤ g.size := by
    rw [rowCount_eq]
    exact Nat.div_pos_iff
  rw [hrows, CanonicallyOrderedAdd.mul_pos]
  simp only [Geometry.wellFormed, Bool.and_eq_true, decide_eq_true_eq]
  tauto

/-- Settles O47: `wellFormed_iff`, and the two equations of `configure` in phase LOAD. -/
theorem configureRefusesExactlyIllegalGeometry : Obligations.ConfigureRefusesExactlyIllegalGeometry :=
  ⟨wellFormed_iff, fun cfg _ hs => ⟨fun hc => configure_again_eq hs hc cfg, fun hc => configure_eq hs hc cfg⟩⟩

end Sys2Proof.Machine
end

section
/-! The host's side (45_host_interface.md, 70_reset_and_hazards.md): the invariant under the host's transactions, the boot
sequence, the machine-code file, and what `observe` and the final dump show. -/

namespace Sys2Proof.Machine

/-! ### The invariant -/

/-- Settles O29: the parts of the reset state. -/
theorem invHoldsAtReset : Obligations.InvHoldsAtReset :=
  ⟨State.reset_mem_wf, State.reset_regs_getElem 0, rfl, rfl, fun h => Bool.noConfusion h⟩

/-- Settles O31: `configure` replaces the sets by empty ones of a legal configuration, `load_word` is a write to memory,
`start` only starts the machine, and reset is O29. -/
theorem invKeptByHostTransactions : Obligations.InvKeptByHostTransactions := by
  rintro cfg addr data s t ⟨hmem, hzero, hsets, hlegal, hhalted⟩
  refine ⟨?configure, ?load, ?start, invHoldsAtReset⟩
  case configure =>
    intro h
    obtain ⟨-, -, hcfg, rfl⟩ := configure_next_cases h
    have hspec : (s.setCaches cfg).configLegal = true := by
      rw [State.configLegal, State.setCaches_caches, emptyCaches_spec]
      exact hcfg
    exact ⟨hmem, hzero, emptyCaches_wf cfg, hspec, hhalted⟩
  case load =>
    intro h
    obtain ⟨-, rfl⟩ := loadWord_next_cases h
    exact ⟨Memory.write_wf hmem _ _, hzero, hsets, hlegal, hhalted⟩
  case start =>
    intro h
    obtain ⟨-, rfl⟩ := start_next_cases h
    exact ⟨hmem, hzero, hsets, hlegal, fun _ => rfl⟩

/-! ### Boot -/

/-- The memory after the words of an image have been written from cell `k` upward (R170). -/
def Memory.writeFrom (k : Nat) : List Word → Memory → Memory
  | [], m => m
  | v :: rest, m => writeFrom (k + 1) rest (m.write k v)

/-- Loading an image in phase LOAD writes its words to memory and changes nothing else, as long as the cells exist. -/
theorem loadFrom_eq {k : Nat} {image : List Word} {s : State} (hs : s.started = false)
    (hfit : k + image.length ≤ 8192) : loadFrom k image s = .next { s with mem := s.mem.writeFrom k image } := by
  induction image generalizing k s with
  | nil => rfl
  | cons v rest ih =>
    rw [List.length_cons] at hfit
    have haddr : (BitVec.ofNat 13 k).toNat = k := Nat.mod_eq_of_lt (by omega)
    have hload : loadWord (BitVec.ofNat 13 k) v s = .next (s.store k v) := by
      rw [loadWord, inLoad_eq hs, haddr]
    have hrest := ih (k := k + 1) (s := s.store k v) hs (by omega)
    rw [loadFrom, hload]
    exact hrest

theorem Memory.writeFrom_wf {m : Memory} (h : m.wf = true) (k : Nat) (image : List Word) :
    (m.writeFrom k image).wf = true := by
  induction image generalizing k m with
  | nil => exact h
  | cons v rest ih => exact ih (Memory.write_wf h k v) (k + 1)

/-- The cells from `k` hold the image, and every other cell reads as before. -/
theorem Memory.read_writeFrom (m : Memory) {k a : Nat} {image : List Word} (hfit : k + image.length ≤ 8192)
    (ha : a < 8192) :
    (m.writeFrom k image).read a = if k ≤ a then image.getD (a - k) (m.read a) else m.read a := by
  induction image generalizing k m with
  | nil => simp [Memory.writeFrom]
  | cons v rest ih =>
    rw [List.length_cons] at hfit
    rw [Memory.writeFrom, ih (m.write k v) (by omega)]
    obtain hlt | rfl | hgt := Nat.lt_trichotomy a k
    · have hother : cellIndex a ≠ cellIndex k := by simp only [cellIndex, Config.memWords]; omega
      rw [if_neg (by omega), if_neg (by omega), m.read_write_other v hother]
    · rw [if_neg (by omega), if_pos le_rfl, m.read_write_same v rfl, Nat.sub_self, List.getD_cons_zero]
    · have hother : cellIndex a ≠ cellIndex k := by simp only [cellIndex, Config.memWords]; omega
      obtain ⟨i, rfl⟩ : ∃ i, a = k + 1 + i := ⟨a - (k + 1), by omega⟩
      rw [if_pos (by omega), if_pos (by omega), m.read_write_other v hother, Nat.add_sub_cancel_left,
        show k + 1 + i - k = i + 1 by omega, List.getD_cons_succ]

/-- The first state of a run: reset, with the configuration, the image and the start. -/
def bootState (cfg : CacheSpec) (image : List Word) : State :=
  { State.reset.setCaches cfg with mem := Memory.writeFrom 0 image ⟨[]⟩, started := true }

theorem boot_eq {cfg : CacheSpec} {image : List Word} (hcfg : cfg.wellFormed = true) (himage : image.length ≤ 8192) :
    boot cfg image = .next (bootState cfg image) := by
  have hload : loadImage image (State.reset.setCaches cfg) =
      .next { State.reset.setCaches cfg with mem := Memory.writeFrom 0 image ⟨[]⟩ } := by
    rw [loadImage, if_pos (show image.length ≤ Config.memWords from himage)]
    exact loadFrom_eq rfl (by omega)
  rw [boot, configure_reset hcfg, andThen, hload]
  rfl

theorem bootState_inv {cfg : CacheSpec} (hcfg : cfg.wellFormed = true) (image : List Word) :
    (bootState cfg image).Inv := by
  have hspec : (bootState cfg image).caches.spec = cfg := emptyCaches_spec cfg
  have hlegal : (bootState cfg image).configLegal = true := by
    rw [State.configLegal, hspec]
    exact hcfg
  exact ⟨Memory.writeFrom_wf State.reset_mem_wf 0 image, State.reset_regs_getElem 0, emptyCaches_wf cfg, hlegal,
    fun _ => rfl⟩

/-- Settles O49: the boot sequence answers `bootState`, whose memory is the image over the blank cells of reset. -/
theorem bootPlacesImageFromCellZero : Obligations.BootPlacesImageFromCellZero := by
  intro cfg image hcfg himage
  refine ⟨_, boot_eq hcfg himage, fun a ha => ?_, fun r => ?_, rfl, rfl, rfl, rfl, rfl, rfl, bootState_inv hcfg image⟩
  · have hread := Memory.read_writeFrom ⟨[]⟩ (k := 0) (image := image) (by omega) ha
    rwa [if_pos (Nat.zero_le a), Memory.read_empty, Nat.sub_zero] at hread
  · exact (State.readReg_congr rfl r).trans (State.reset_readReg r)

/-! ### The machine-code file -/

/-- The lines are in sequence from `start` exactly when they end below 8192 and each has its address and sixteen
digits. -/
theorem linesInSequence_iff {start : Nat} (lines : List ImageLine) (hstart : start ≤ 8192) :
    linesInSequence start lines = true ↔ start + lines.length ≤ 8192 ∧
      ∀ i, (h : i < lines.length) → lines[i].addr = start + i ∧ lines[i].digits.length = 16 := by
  induction lines generalizing start with
  | nil => simp [linesInSequence, hstart]
  | cons l rest ih =>
    simp only [linesInSequence, ImageLine.wellFormed, Bool.and_eq_true, decide_eq_true_eq, List.length_cons]
    constructor
    · rintro ⟨⟨⟨hlt, hdigits⟩, haddr⟩, hrest⟩
      have hlt : l.addr < 8192 := hlt
      obtain ⟨hlen, hlines⟩ := (ih (start := start + 1) (by omega)).mp hrest
      refine ⟨by omega, fun i hi => ?_⟩
      cases i with
      | zero => exact ⟨haddr, hdigits⟩
      | succ i =>
        obtain ⟨hi1, hi2⟩ := hlines i (by omega)
        exact ⟨by rw [List.getElem_cons_succ, hi1]; omega, hi2⟩
    · rintro ⟨hlen, hlines⟩
      obtain ⟨haddr, hdigits⟩ := hlines 0 (by omega)
      rw [List.getElem_cons_zero] at haddr hdigits
      have hlt : l.addr < 8192 := by omega
      refine ⟨⟨⟨hlt, hdigits⟩, haddr⟩, (ih (start := start + 1) (by omega)).mpr ⟨by omega, fun i hi => ?_⟩⟩
      obtain ⟨hi1, hi2⟩ := hlines (i + 1) (by omega)
      rw [List.getElem_cons_succ] at hi1 hi2
      exact ⟨by omega, hi2⟩

/-- Settles O50: the lines from 0. -/
theorem legalImageFilesAreInSequence : Obligations.LegalImageFilesAreInSequence := by
  intro lines
  simpa only [imageWellFormed, Nat.zero_add] using linesInSequence_iff lines (Nat.zero_le 8192)

/-- One more digit shifts the Word to the left by one bit and becomes bit 0. -/
theorem wordOfDigits_append (digits : List Bool) (d : Bool) :
    wordOfDigits (digits ++ [d]) = (wordOfDigits digits).shiftConcat d := by
  have hfold : wordOfDigits (digits ++ [d]) = wordOfDigits digits + wordOfDigits digits + (if d then 1 else 0) := by
    simp only [wordOfDigits, List.foldl_append, List.foldl_cons, List.foldl_nil]
  rw [hfold]
  apply BitVec.eq_of_toNat_eq
  rw [BitVec.toNat_shiftConcat, Nat.shiftLeft_eq]
  cases d <;> simp <;> omega

/-- The last digit is bit 0, and the digits before it follow upward. -/
theorem getLsbD_wordOfDigits (digits : List Bool) {j : Nat} (hj : j < 16) :
    (wordOfDigits digits).getLsbD j = digits.reverse.getD j false := by
  induction digits using List.reverseRecOn generalizing j with
  | nil => simp [wordOfDigits]
  | append_singleton digits d ih =>
    rw [wordOfDigits_append, BitVec.getLsbD_shiftConcat, List.reverse_concat]
    cases j with
    | zero => simp
    | succ j => simp [hj, ih (j := j) (by omega)]

/-- Settles O51: of sixteen digits, digit `i` is the one `15 - i` places from the end. -/
theorem firstDigitIsBitFifteen : Obligations.FirstDigitIsBitFifteen := by
  intro digits hlen i hi
  have hj : 15 - i < digits.reverse.length := by rw [List.length_reverse]; omega
  rw [getLsbD_wordOfDigits digits (by omega), List.getD_eq_getElem _ _ hj, List.getElem_reverse]
  congr 1
  omega

/-! ### What the host sees -/

/-- Settles O52: the lists are indexed by the registers and by the cells. -/
theorem observeShowsWholeState : Obligations.ObserveShowsWholeState := by
  intro s
  have hregs : ∀ r : Reg, s.observe.regs[r.val]? = some (s.readReg r) := fun r => by simp [State.observe]
  have hmem : ∀ a, a < 8192 → s.observe.mem[a]? = some (s.mem.read a) := fun a ha => by
    simp [State.observe, Config.memWords, ha]
  exact ⟨rfl, rfl, rfl, by simp [State.observe], hregs, by simp [State.observe, Config.memWords], hmem⟩

theorem finalDump_of_running {s : State} (h : s.halted = false) : s.finalDump = none := by
  simp [State.finalDump, h]

theorem finalDump_of_halted {s : State} (h : s.halted = true) : s.finalDump =
    some ⟨s.pc, (List.finRange 8).map s.readReg, (List.range 128).map s.mem.read⟩ := by
  simp [State.finalDump, h, dumpWords]

/-- A line of the memory part has the eight cells of its row. -/
theorem dumpLines_getElem? {d : FinalDump} {m : Memory} (hd : d.words = (List.range 128).map m.read) {i : Nat}
    (hi : i < 16) :
    (dumpLines d)[i]? = some (hexLine ((List.range 8).map fun k => m.read (8 * i + k))) := by
  have hrow : (d.words.drop (8 * i)).take 8 = (List.range 8).map fun k => m.read (8 * i + k) := by
    rw [hd]
    apply List.ext_getElem
    · simp; omega
    · intro k _ _
      simp
  simp [dumpLines, hi, hrow]

/-- The text: the line of the pc, a line per register, and the sixteen lines of memory. -/
theorem dumpText_eq (d : FinalDump) :
    dumpText d = decimal d.pc.toNat :: (d.regs.mapIdx registerLine ++ dumpLines d) := rfl

theorem dumpLines_length (d : FinalDump) : (dumpLines d).length = 16 := by simp [dumpLines]

/-- Settles O54: the parts of the dump are lists indexed by the registers and by the cells, and the text appends their
lines. -/
theorem finalDumpShowsHaltedState : Obligations.FinalDumpShowsHaltedState := by
  intro s
  refine ⟨finalDump_of_running, fun hhalted => ⟨_, finalDump_of_halted hhalted, rfl, by simp, by simp,
    fun r => by simp, fun a ha => by simp [ha], ?length, by rw [dumpText_eq]; rfl, ?register, ?memory⟩⟩
  case length => simp [dumpText_eq, dumpLines_length]
  case register =>
    intro r
    rw [dumpText_eq, Nat.add_comm, List.getElem?_cons_succ, List.getElem?_append_left (by simp)]
    simp [registerLine]
  case memory =>
    intro i hi
    rw [dumpText_eq, show 9 + i = (8 + i) + 1 by omega, List.getElem?_cons_succ,
      List.getElem?_append_right (by simp)]
    simpa using dumpLines_getElem? rfl hi

end Sys2Proof.Machine
end
